-- ==== Sys2Proof/Word.lean ====
section
/-! DEFINITION. The bit vectors and the small value types of LEBDEC's registers (spec/10_state.md). -/

namespace Sys2Proof

/-- A byte of the memory and of the input (00_scope R6: 8 bits). -/
abbrev Byte := BitVec 8
/-- The payload of a group, `b[6:0]` (30_encoding R51). -/
abbrev Payload := BitVec 7
/-- The operation code held in `OP` (10_state R15): bit 1 is WIDE, bit 0 is SIGNED. -/
abbrev OpCode := BitVec 2
/-- The accumulator, 70 bits (10_state R20). -/
abbrev Acc := BitVec 70

/-- The four values of the mode register `PHASE` (10_state R14). -/
inductive Phase where
  | idle | scan | done | fail
  deriving DecidableEq, Repr

/-- The four values of `ERR` (10_state R25). -/
inductive Err where
  | noError | truncated | tooLong | overflow
  deriving DecidableEq, Repr, Inhabited

/-- The three failure causes (60_exceptions R101 to R103): what `fail X` takes. -/
inductive Cause where
  | truncated | tooLong | overflow
  deriving DecidableEq, Repr

/-- `VALUE` is BITS wide (10_state R23): 32 bits of a 32-bit operation or 64 of a 64-bit one,
and a 32-bit operation has no upper half. -/
inductive Value where
  | w32 (v : BitVec 32)
  | w64 (v : BitVec 64)
  deriving DecidableEq, Repr, Inhabited

end Sys2Proof
end

