-- ==== Sys2Proof/Syntax.lean ====
section
/-! DEFINITION. The six rows of spec/opcode_table.json. -/

namespace Sys2Proof

/-- One constructor per row of the opcode table (30_encoding R66). The four operations carry the span of their launch
(30_encoding R58); the two kinds of group carry the payload of the byte just read (30_encoding R51). -/
inductive Instr where
  /-- `decode_u32`, code 0b00 (41_decode_ops R94) -/
  | decodeU32 (start stop : Nat)
  /-- `decode_i32`, code 0b01 (41_decode_ops R93) -/
  | decodeI32 (start stop : Nat)
  /-- `decode_u64`, code 0b10 (41_decode_ops R96) -/
  | decodeU64 (start stop : Nat)
  /-- `decode_i64`, code 0b11 (41_decode_ops R95) -/
  | decodeI64 (start stop : Nat)
  /-- `GROUP.CONT`, byte `1ppppppp` (40_generic_decode R75) -/
  | groupCont (payload : Payload)
  /-- `GROUP.TERM`, byte `0ppppppp` (40_generic_decode R76) -/
  | groupTerm (payload : Payload)
  deriving DecidableEq, Repr

/-- The two formats of the opcode table, which "never meet" (30_encoding R66): an operation code comes from the host
at a launch, a group from memory during a scan. -/
inductive Format where
  | opsel | group
  deriving DecidableEq, Repr

end Sys2Proof
end

