-- ==== Sys2Proof/WellFormed.lean ====
section
/-! DEFINITION. Which instructions the wires can carry: a position has AW + 1 bits (30_encoding R58, 60_exceptions R117). -/

namespace Sys2Proof

/-- A position fits the AW + 1 bits of `span_start_i` and `span_end_i`. -/
def positionFits (aw p : Nat) : Bool := decide (p < 2 ^ (aw + 1))

/-- Both positions of a launch fit their wires; a payload fits its field by its type. Whether the span is legal
(`start ≤ end ≤ 2^AW`) is not a matter of form: R112 decides it at the launch. -/
def wellFormed (aw : Nat) : Instr → Bool
  | .decodeU32 a b => positionFits aw a && positionFits aw b
  | .decodeI32 a b => positionFits aw a && positionFits aw b
  | .decodeU64 a b => positionFits aw a && positionFits aw b
  | .decodeI64 a b => positionFits aw a && positionFits aw b
  | .groupCont _ => true
  | .groupTerm _ => true

end Sys2Proof
end

