-- ==== Sys2Proof/Decode.lean ====
section
/-! DEFINITION. The two decoders of spec/30_encoding.md (the group byte, the operation code with its span), the
encoder beside them, the opcode table as rows of mask and pattern, and the host's probe of the table. -/

namespace Sys2Proof

/-- `CONT = b[7]` (30_encoding R51, 20_memory R42). -/
def contFlag (b : Byte) : Bool := b.getLsbD 7

/-- `PAYLOAD = b[6:0]` (30_encoding R51). -/
def payloadOf (b : Byte) : Payload := b.extractLsb' 0 7

/-- `WIDE = OP[1]` (10_state R16). -/
def opWide (c : OpCode) : Bool := c.getLsbD 1

/-- `SIGNED = OP[0]` (10_state R17). -/
def opSigned (c : OpCode) : Bool := c.getLsbD 0

/-- The group decoder: total, it refuses no byte (30_encoding R60). -/
def decodeGroup (b : Byte) : Instr :=
  if contFlag b then .groupCont (payloadOf b) else .groupTerm (payloadOf b)

/-- The decoder of the operation code (30_encoding R57): all four codes are used. -/
def decodeLaunch (c : OpCode) (start stop : Nat) : Instr :=
  match opWide c, opSigned c with
  | false, false => .decodeU32 start stop
  | false, true => .decodeI32 start stop
  | true, false => .decodeU64 start stop
  | true, true => .decodeI64 start stop

/-- Why a word is no instruction: it has more bits than its format. Nothing else is rejected (30_encoding R60, R62). -/
inductive DecodeError where
  | groupTooWide
  | launchTooWide
  deriving DecidableEq, Repr

/-- The number of bits a launch puts on its wires: `op_i`, `span_start_i`, `span_end_i` (60_exceptions R117). -/
def launchWidth (aw : Nat) : Nat := 2 + 2 * (aw + 1)

/-- Both decoders over one number: a group is its byte; a launch is the code in bits 1:0, the start position in the
AW + 1 bits above it and the end position in the AW + 1 bits above that. The order of a launch's wires is a
DESIGN CHOICE, log 13. -/
def decodeWord (aw : Nat) (f : Format) (w : Nat) : Except DecodeError Instr :=
  match f with
  | .group => if w < 2 ^ 8 then .ok (decodeGroup (BitVec.ofNat 8 w)) else .error .groupTooWide
  | .opsel =>
    if w < 2 ^ launchWidth aw then
      .ok (decodeLaunch (BitVec.ofNat 2 w) (w / 2 ^ 2 % 2 ^ (aw + 1)) (w / 2 ^ (2 + (aw + 1))))
    else .error .launchTooWide

/-- The wires of a launch as one number. -/
def launchWord (aw : Nat) (c : OpCode) (start stop : Nat) : Nat :=
  c.toNat + 2 ^ 2 * (start + 2 ^ (aw + 1) * stop)

/-- The encoder: the format and the word of an instruction, from the encodings of 30_encoding R51 and R57. -/
def encode (aw : Nat) : Instr → Format × Nat
  | .decodeU32 a b => (.opsel, launchWord aw 0b00#2 a b)
  | .decodeI32 a b => (.opsel, launchWord aw 0b01#2 a b)
  | .decodeU64 a b => (.opsel, launchWord aw 0b10#2 a b)
  | .decodeI64 a b => (.opsel, launchWord aw 0b11#2 a b)
  | .groupCont p => (.group, (1#1 ++ p).toNat)
  | .groupTerm p => (.group, (0#1 ++ p).toNat)

/-- A row of spec/opcode_table.json. -/
structure TableRow where
  mnemonic : String
  format : Format
  width : Nat
  mask : Nat
  pattern : Nat
  deriving DecidableEq, Repr

/-- The table's row of an instruction. -/
def rowOf : Instr → TableRow
  | .decodeU32 _ _ => ⟨"decode_u32", .opsel, 2, 0x3, 0x0⟩
  | .decodeI32 _ _ => ⟨"decode_i32", .opsel, 2, 0x3, 0x1⟩
  | .decodeU64 _ _ => ⟨"decode_u64", .opsel, 2, 0x3, 0x2⟩
  | .decodeI64 _ _ => ⟨"decode_i64", .opsel, 2, 0x3, 0x3⟩
  | .groupCont _ => ⟨"GROUP.CONT", .group, 8, 0x80, 0x80⟩
  | .groupTerm _ => ⟨"GROUP.TERM", .group, 8, 0x80, 0x00⟩

/-- Which format a table word belongs to, for the host's probe only. At its own width a row is unmistakable: 2 bits are
an operation code, 8 bits a group. An operation code padded to a whole byte is the same number as a terminating
group of payload 0 to 3; the padded codes 1 to 3 are then read as operations and 0 as the group, whose table
pattern 0x00 is. The machine itself never meets this question (30_encoding R66). DESIGN CHOICE, log 14. -/
def tableFormat (nbits w : Nat) : Option Format :=
  if nbits = 2 then (if w < 4 then some .opsel else none)
  else if nbits = 8 then
    (if 0 < w ∧ w < 4 then some .opsel else if w < 2 ^ 8 then some .group else none)
  else none

/-- The instruction the decoder reads from a table word, its operand bits above `nbits` zero. -/
def decodeTableWord (nbits w : Nat) : Option Instr :=
  match tableFormat nbits w with
  | some .opsel => some (decodeLaunch (BitVec.ofNat 2 w) 0 0)
  | some .group => some (decodeGroup (BitVec.ofNat 8 w))
  | none => none

end Sys2Proof
end

