-- ==== Sys2Proof/Machine/Operands.lean ====
section
/-! DEFINITION. What the operation code and a group's byte stand for (spec/00_scope.md, spec/10_state.md), the codes of
the two coded registers, and the bit fields of 00_scope R9. -/

namespace Sys2Proof.Machine

/-- `PHASE`'s code (10_state R14). -/
def phaseCode : Phase → BitVec 2
  | .idle => 0b00#2
  | .scan => 0b01#2
  | .done => 0b10#2
  | .fail => 0b11#2

/-- `ERR`'s code (10_state R25). -/
def errCode : Err → BitVec 2
  | .noError => 0b00#2
  | .truncated => 0b01#2
  | .tooLong => 0b10#2
  | .overflow => 0b11#2

/-- What `fail X` writes into `ERR` (60_exceptions R104). -/
def causeErr : Cause → Err
  | .truncated => .truncated
  | .tooLong => .tooLong
  | .overflow => .overflow

/-- `LEN <- −code(X)` as a 5-bit two's-complement number (60_exceptions R104). -/
def causeLen (c : Cause) : BitVec 5 := -((errCode (causeErr c)).setWidth 5)

/-- `BITS` (10_state R16). -/
def bits (c : OpCode) : Nat := if opWide c then 64 else 32

/-- `MAX_GROUPS(BITS) = ceil(BITS / 7)` (00_scope R5). -/
def maxGroups (c : OpCode) : Nat := (bits c + 6) / 7

/-- `ones(hi, lo)` at width `w` (00_scope R9): bits `hi` down to `lo` set, all others clear. -/
def ones (w hi lo : Nat) : BitVec w := if hi < lo then 0 else BitVec.ofNat w (2 ^ (hi + 1) - 2 ^ lo)

/-- The bits the terminating check and the sign extension look at: `P[6:used]` all equal to `f`
(40_generic_decode R80). -/
def topBitsAre (f : Bool) (used : Nat) (p : Payload) : Bool :=
  (List.range 7).all fun j => decide (j < used) || p.getLsbD j == f

/-- Reading `VALUE` as an integer (00_scope R8). -/
def valueUnsigned : Value → Nat
  | .w32 v => v.toNat
  | .w64 v => v.toNat

@[inherit_doc valueUnsigned]
def valueSigned : Value → Int
  | .w32 v => v.toInt
  | .w64 v => v.toInt

/-- The width of `VALUE`. -/
def valueWidth : Value → Nat
  | .w32 _ => 32
  | .w64 _ => 64

end Sys2Proof.Machine
end

