-- ==== Sys2Proof/Machine/Flags.lean ====
section
/-! DEFINITION. The signals of a terminating group (10_state R27): the canonicality check and the sign extension of
spec/40_generic_decode.md. LEBDEC has no flags register (10_state R26). In all of them `sh` is SHIFT after the
increment of 40_generic_decode R74. -/

namespace Sys2Proof.Machine

/-- `USED = min(7, BITS − (S − 7))` (40_generic_decode R77; 90_conflicts C1). -/
def usedBits (c : OpCode) (sh : Nat) : Nat := min 7 (bits c - (sh - 7))

/-- `OVF = 7 − USED` (40_generic_decode R78). -/
def overflowBits (c : OpCode) (sh : Nat) : Nat := 7 - usedBits c sh

/-- `F` (40_generic_decode R79): 0 if unsigned, else the sign bit of the in-width portion, `P[USED−1]`. -/
def fillBit (c : OpCode) (sh : Nat) (p : Payload) : Bool := opSigned c && p.getLsbD (usedBits c sh - 1)

/-- The canonicality check (40_generic_decode R80): the overflow region, if there is one, holds the fill. -/
def fillOk (c : OpCode) (sh : Nat) (p : Payload) : Bool :=
  overflowBits c sh == 0 || topBitsAre (fillBit c sh p) (usedBits c sh) p

/-- Whether a short signed encoding is filled (40_generic_decode R81; 90_conflicts C2). -/
def needsExt (c : OpCode) (sh : Nat) (p : Payload) : Bool :=
  opSigned c && decide (sh < bits c) && p.getLsbD 6

/-- `EXT`, at the width of the result (40_generic_decode R81). -/
def extMask (w : Nat) (c : OpCode) (sh : Nat) (p : Payload) : BitVec w :=
  if needsExt c sh p then ones w (w - 1) sh else 0

/-- `VALUE <- A[BITS−1:0] | EXT` (40_generic_decode R82). -/
def resultValue (c : OpCode) (a : Acc) (sh : Nat) (p : Payload) : Value :=
  if opWide c then .w64 (a.setWidth 64 ||| extMask 64 c sh p)
  else .w32 (a.setWidth 32 ||| extMask 32 c sh p)

end Sys2Proof.Machine
end

