-- ==== Sys2Proof/Config.lean ====
section
/-! DEFINITION. What the spec leaves open: the free values (no body: nothing can compute one), and the one number
State.reset needs for the open parameter AW. -/

namespace Sys2Proof.Config

/-- The width of a byte position that `State.reset` holds. The spec leaves AW open (00_scope R6); the model holds it
as a field of State and no definition of the step mentions this number. DESIGN CHOICE, log 2. -/
def resetAddressWidth : Nat := 32

/-- Free contents of each register after a reset (10_state R32: "an option type, or a draw", "and not zero"),
applied to the draw counter. Log 5. -/
opaque freeOp : Nat → OpCode
@[inherit_doc freeOp] opaque freePos : Nat → Nat
@[inherit_doc freeOp] opaque freeEnd : Nat → Nat
@[inherit_doc freeOp] opaque freeAcc : Nat → Acc
@[inherit_doc freeOp] opaque freeShift : Nat → BitVec 7
@[inherit_doc freeOp] opaque freeGroupCount : Nat → BitVec 4
@[inherit_doc freeOp] opaque freeValue : Nat → Value
@[inherit_doc freeOp] opaque freeLen : Nat → BitVec 5
@[inherit_doc freeOp] opaque freeErr : Nat → Err

/-- Free value of a failed 32-bit operation: "any value, a draw under no law" (10_state R23; 93, U1). Log 6. -/
opaque freeValue32 : Nat → BitVec 32
/-- Free value of a failed 64-bit operation (10_state R23; 93, U1). Log 6. -/
opaque freeValue64 : Nat → BitVec 64

end Sys2Proof.Config
end

