-- ==== Sys2Proof/Machine/State.lean ====
section
/-! DEFINITION. The state of LEBDEC as plain data: the ten registers of 10_state R13, the open parameters AW and MEM,
and the model's own record of the host. -/

namespace Sys2Proof.Machine

/-- The byte memory: strictly rising addresses, no entry equal to what an unlisted address reads as (`Memory.wf`). -/
abbrev Memory := List Host.Cell

/-- The registers the host has no way to read (10_state R33). -/
inductive HiddenRegister where
  | op | endPos | pos | acc | shift | groupCount
  deriving DecidableEq, Repr

/-- What the host does next. -/
inductive HostAction where
  /-- `launch(op, start, end)` (60_exceptions R112) -/
  | launch (code : OpCode) (start stop : Nat)
  /-- `read()` (60_exceptions R113) -/
  | read
  /-- `phase()` (60_exceptions R114) -/
  | phase
  /-- `reset` (70_reset_and_hazards R123) -/
  | reset
  /-- the host puts a byte into its own memory (20_memory R46, 70_reset_and_hazards R126 step 2); log 10 -/
  | memWrite (addr : Nat) (b : Byte)
  /-- an attempt to see a working register (60_exceptions R118 item 5) -/
  | peek (r : HiddenRegister)
  /-- the host lets the decoder take one step -/
  | dec
  /-- `WAIT`: the host lets the decoder step until `PHASE ≠ SCAN` (30_encoding R64) -/
  | wait
  deriving DecidableEq, Repr

/-- What the block answered to the host. -/
inductive Reply where
  | phase (p : Phase)
  | result (value : Value) (len : BitVec 5) (err : Err)
  deriving DecidableEq, Repr

/-- The machine. -/
structure State where
  /-- `PHASE` (10_state R14) -/
  phase : Phase
  /-- `OP` (10_state R15) -/
  op : OpCode
  /-- `END`, AW + 1 bits (10_state R18); log 3 -/
  endPos : Nat
  /-- `POS`, AW + 1 bits (10_state R19); log 3 -/
  pos : Nat
  /-- `ACC` (10_state R20) -/
  acc : Acc
  /-- `SHIFT` (10_state R21) -/
  shift : BitVec 7
  /-- `GROUPCOUNT` (10_state R22) -/
  groupCount : BitVec 4
  /-- `VALUE` (10_state R23) -/
  value : Value
  /-- `LEN`, two's complement (10_state R24) -/
  len : BitVec 5
  /-- `ERR` (10_state R25) -/
  err : Err
  /-- the open parameter `AW` (00_scope R6); no step changes it; log 2 -/
  aw : Nat
  /-- the open parameter `MEM` (20_memory R35) -/
  mem : Memory
  /-- the model's own: the host's actions still to come, first one first; log 1 -/
  inputs : List HostAction
  /-- the model's own: the last answer to the host; log 17 -/
  reply : Option Reply
  /-- the model's own: how many free values have been drawn; log 7 -/
  draws : Nat
  deriving DecidableEq, Repr

/-- Why the machine stops. Neither fault is an event of the hardware: both are the edge of the model. -/
inductive Fault where
  /-- Raised where the decoder would have to step and PHASE is not SCAN (40_generic_decode R70, 60_exceptions R121):
  the stuck state in which a run has ended (70_reset_and_hazards R135). Safe. -/
  | noDecoderStep
  /-- Raised by an access to a position at or above 2^AW, where 20_memory R36 gives no byte. Safe: no reachable
  state reads there. -/
  | outsideMemory
  deriving DecidableEq, Repr

/-- The refusals of 60_exceptions R118, each a host action the spec gives no meaning. All safe. -/
inductive Refusal where
  /-- an instruction without a meaning in this model (none) -/
  | notModelled (mnemonic : String)
  /-- a launch while PHASE = SCAN: R118 item 1 -/
  | launchWhileScanning
  /-- a launch with start > end or end > 2^AW: R118 item 2 -/
  | illegalSpan
  /-- a read() while PHASE is IDLE or SCAN: R118 item 3 -/
  | noResult
  /-- a host write to the span while PHASE = SCAN: R118 item 4 -/
  | spanWriteWhileScanning
  /-- an access to an unobservable register: R118 item 5 -/
  | hiddenRegister
  deriving DecidableEq, Repr

/-- The machine right after reset (10_state R32): PHASE = IDLE, and every other register a free value. -/
def State.reset : State where
  phase := .idle
  op := Config.freeOp 0
  endPos := Config.freeEnd 0 % 2 ^ (Config.resetAddressWidth + 1)
  pos := Config.freePos 0 % 2 ^ (Config.resetAddressWidth + 1)
  acc := Config.freeAcc 0
  shift := Config.freeShift 0
  groupCount := Config.freeGroupCount 0
  value := Config.freeValue 0
  len := Config.freeLen 0
  err := Config.freeErr 0
  aw := Config.resetAddressWidth
  mem := []
  inputs := []
  reply := none
  draws := 1

end Sys2Proof.Machine
end

