-- ==== Sys2Proof/Machine/Ops.lean ====
section
/-! DEFINITION. The shared operations: the byte memory, the launch, the register updates of a group, failure entry
(the hardware's only kind of exception) and success. -/

namespace Sys2Proof.Machine

/-! ### Memory (spec/20_memory.md) -/

/-- What an unlisted address reads as. MEM is open (20_memory R35); DESIGN CHOICE, log 4. -/
def Memory.unlisted : Byte := 0x00#8

/-- The byte at an address. -/
def Memory.read : Memory → Nat → Byte
  | [], _ => Memory.unlisted
  | (k, v) :: m, a => if a = k then v else Memory.read m a

/-- Store one byte, keeping the canonical form. -/
def Memory.write : Memory → Nat → Byte → Memory
  | [], a, b => if b = Memory.unlisted then [] else [(a, b)]
  | (k, v) :: m, a, b =>
    if a < k then (if b = Memory.unlisted then (k, v) :: m else (a, b) :: (k, v) :: m)
    else if a = k then (if b = Memory.unlisted then m else (a, b) :: m)
    else (k, v) :: Memory.write m a b

/-- The canonical form: addresses strictly rising, no entry that reads as an unlisted address does. -/
def Memory.wf : Memory → Bool
  | [] => true
  | (k, v) :: m => v != Memory.unlisted && m.all (fun c => decide (k < c.1)) && Memory.wf m

/-- `MemRead(addr, 1)` (20_memory R36): there are 2^AW positions, and a read changes nothing. -/
def memRead (s : State) (a : Nat) : Option Byte := if a < 2 ^ s.aw then some (s.mem.read a) else none

/-- The span's bytes `MEM[start]` to `MEM[end − 1]` in order (20_memory R37). -/
def spanBytes (m : Memory) (start stop : Nat) : List Byte :=
  (List.range' start (stop - start)).map m.read

/-! ### Registers -/

/-- A free value of the width the operation's `VALUE` has (93, U1). -/
def drawValue (c : OpCode) (n : Nat) : Value :=
  if opWide c then .w64 (Config.freeValue64 n) else .w32 (Config.freeValue32 n)

/-- The working registers of a fresh operation (10_state R31). VALUE, LEN and ERR stay as they stand (R13; log 18). -/
def startScan (c : OpCode) (start stop : Nat) (s : State) : State :=
  { s with phase := .scan, op := c, pos := start, endPos := stop, acc := 0, shift := 0, groupCount := 0 }

/-- `launch(op, start, end)` (60_exceptions R112): admitted if and only if PHASE ≠ SCAN and start ≤ end ≤ 2^AW. -/
def launch (c : OpCode) (start stop : Nat) (s : State) : Host.Outcome State Fault Refusal :=
  if s.phase = .scan then .refused .launchWhileScanning
  else if start ≤ stop ∧ stop ≤ 2 ^ s.aw then .next (startScan c start stop s)
  else .refused .illegalSpan

/-- The four register updates of every group (40_generic_decode R72 to R75). -/
def accumulate (p : Payload) (s : State) : State :=
  { s with
    pos := s.pos + 1
    acc := s.acc ||| (p.setWidth 70 <<< s.shift.toNat)
    shift := s.shift + 7
    groupCount := s.groupCount + 1 }

/-- Failure entry, `fail X` (60_exceptions R104). "`VALUE` becomes unusable": it takes a free value (log 6). -/
def failWith (c : Cause) (s : State) : State :=
  { s with
    phase := .fail
    err := causeErr c
    len := causeLen c
    value := drawValue s.op s.draws
    draws := s.draws + 1 }

/-- Success (40_generic_decode R82): `LEN <- G`, `ERR <- NONE`, `PHASE <- DONE`. -/
def succeed (v : Value) (s : State) : State :=
  { s with phase := .done, value := v, len := s.groupCount.setWidth 5, err := .noError }

/-- The end of a terminating group, after its four register updates (40_generic_decode R76 to R82). -/
def terminate (p : Payload) (s : State) : State :=
  if fillOk s.op s.shift.toNat p then succeed (resultValue s.op s.acc s.shift.toNat p) s
  else failWith .overflow s

/-- The decoder's step up to its byte (40_generic_decode R70, steps 1 to 3; the order of the tests is R71): either the
outcome of a step that reads nothing, or the byte at `POS`. -/
def fetchGroup (s : State) : Except (Host.Outcome State Fault Refusal) Byte :=
  if s.phase ≠ .scan then .error (.fault .noDecoderStep)
  else if s.pos = s.endPos then .error (.next (failWith .truncated s))
  else if s.groupCount.toNat = maxGroups s.op then .error (.next (failWith .tooLong s))
  else match memRead s s.pos with
    | some b => .ok b
    | none => .error (.fault .outsideMemory)

/-- What a group's meaning does once PHASE = SCAN holds; outside SCAN the decoder has no step (40_generic_decode R70). -/
def whileScanning (s t : State) : Host.Outcome State Fault Refusal :=
  if s.phase = .scan then .next t else .fault .noDecoderStep

/-! ### The host's probe of the opcode table -/

/-- The state in which the next step runs a group of table byte `b`: if no decoder step would read a byte here, an
operation (decode_u32 over position 0) is put in progress first, as a launch leaves it (10_state R31); then the byte
is stored at `POS` and the decoder is given the next step. Log 15. -/
def loadGroup (s : State) (b : Byte) : State :=
  let t := match fetchGroup s with
    | .ok _ => s
    | .error _ => startScan 0b00#2 0 1 s
  { t with mem := t.mem.write t.pos b, inputs := .dec :: t.inputs }

/-- The state in which the next step runs a table word. -/
def loadTableWord (s : State) (nbits w : Nat) : State :=
  match tableFormat nbits w with
  | some .opsel => { s with inputs := .launch (BitVec.ofNat 2 w) 0 0 :: s.inputs }
  | some .group => loadGroup s (BitVec.ofNat 8 w)
  | none => s

end Sys2Proof.Machine
end

