-- ==== Sys2Proof/Machine/Group.lean ====
section
/-! DEFINITION. The two kinds of group (format GROUP, spec/40_generic_decode.md): the decoder's step from its byte on. -/

namespace Sys2Proof.Machine

/-- `GROUP.CONT` (40_generic_decode R75). -/
def execGroupCont (p : Payload) (s : State) : Host.Outcome State Fault Refusal := whileScanning s (accumulate p s)

/-- `GROUP.TERM` (40_generic_decode R76). -/
def execGroupTerm (p : Payload) (s : State) : Host.Outcome State Fault Refusal :=
  whileScanning s (terminate p (accumulate p s))

end Sys2Proof.Machine
end

