-- ==== Sys2Proof/Machine/Operations.lean ====
section
/-! DEFINITION. The four operations (format OPSEL, spec/41_decode_ops.md). Executing one is launching it; it then runs
as decoder steps (41_decode_ops R97). -/

namespace Sys2Proof.Machine

/-- `decode_u32`: launch with code 0b00 (41_decode_ops R94). -/
def execDecodeU32 (start stop : Nat) (s : State) : Host.Outcome State Fault Refusal := launch 0b00#2 start stop s

/-- `decode_i32`: launch with code 0b01 (41_decode_ops R93). -/
def execDecodeI32 (start stop : Nat) (s : State) : Host.Outcome State Fault Refusal := launch 0b01#2 start stop s

/-- `decode_u64`: launch with code 0b10 (41_decode_ops R96). -/
def execDecodeU64 (start stop : Nat) (s : State) : Host.Outcome State Fault Refusal := launch 0b10#2 start stop s

/-- `decode_i64`: launch with code 0b11 (41_decode_ops R95). -/
def execDecodeI64 (start stop : Nat) (s : State) : Host.Outcome State Fault Refusal := launch 0b11#2 start stop s

end Sys2Proof.Machine
end

