-- ==== Sys2Proof/Machine/Dispatch.lean ====
section
/-! DEFINITION. One arm per instruction, each a direct call of its meaning. -/

namespace Sys2Proof.Machine

def exec (i : Instr) (s : State) : Host.Outcome State Fault Refusal :=
  match i with
  | .decodeU32 start stop => Sys2Proof.Machine.execDecodeU32 start stop s
  | .decodeI32 start stop => Sys2Proof.Machine.execDecodeI32 start stop s
  | .decodeU64 start stop => Sys2Proof.Machine.execDecodeU64 start stop s
  | .decodeI64 start stop => Sys2Proof.Machine.execDecodeI64 start stop s
  | .groupCont payload => Sys2Proof.Machine.execGroupCont payload s
  | .groupTerm payload => Sys2Proof.Machine.execGroupTerm payload s

end Sys2Proof.Machine
end

