-- ==== Sys2Proof/Machine/HostActions.lean ====
section
/-! DEFINITION. The host's actions other than the launch (spec/60_exceptions.md section 4, spec/70_reset_and_hazards.md)
and the output signals of 60_exceptions R117. -/

namespace Sys2Proof.Machine

/-- Reset (70_reset_and_hazards R123): PHASE = IDLE, every other register a free value. -/
def resetBlock (s : State) : State :=
  { s with
    phase := .idle
    op := Config.freeOp s.draws
    endPos := Config.freeEnd s.draws % 2 ^ (s.aw + 1)
    pos := Config.freePos s.draws % 2 ^ (s.aw + 1)
    acc := Config.freeAcc s.draws
    shift := Config.freeShift s.draws
    groupCount := Config.freeGroupCount s.draws
    value := Config.freeValue s.draws
    len := Config.freeLen s.draws
    err := Config.freeErr s.draws
    draws := s.draws + 1 }

/-- `reset` is admitted in every phase (70_reset_and_hazards R123, R124). -/
def hostReset (s : State) : Host.Outcome State Fault Refusal := .next (resetBlock s)

/-- `read()` (60_exceptions R113). In FAIL the value is a fresh draw at each read (93, U1). -/
def hostRead (s : State) : Host.Outcome State Fault Refusal :=
  match s.phase with
  | .done => .next { s with reply := some (.result s.value s.len s.err) }
  | .fail => .next { s with reply := some (.result (drawValue s.op s.draws) s.len s.err), draws := s.draws + 1 }
  | .idle => .refused .noResult
  | .scan => .refused .noResult

/-- `phase()` (60_exceptions R114). -/
def hostPhase (s : State) : Host.Outcome State Fault Refusal := .next { s with reply := some (.phase s.phase) }

/-- Whether a position lies in the span of the operation in progress, whose start is POS − GROUPCOUNT
(10_state R28). -/
def inSpan (s : State) (a : Nat) : Bool := decide (s.pos - s.groupCount.toNat ≤ a) && decide (a < s.endPos)

/-- The host writes a byte of its memory: free between operations, refused on the span during a scan (20_memory R46,
60_exceptions R118 item 4). Log 10. -/
def hostMemWrite (a : Nat) (b : Byte) (s : State) : Host.Outcome State Fault Refusal :=
  if 2 ^ s.aw ≤ a then .fault .outsideMemory
  else if s.phase = .scan ∧ inSpan s a = true then .refused .spanWriteWhileScanning
  else .next { s with mem := s.mem.write a b }

/-- A working register has no read path (10_state R33; 60_exceptions R118 item 5). -/
def hostPeek (_ : HiddenRegister) (_ : State) : Host.Outcome State Fault Refusal := .refused .hiddenRegister

/-- `phase_o` (60_exceptions R117). -/
def phasePin (s : State) : BitVec 2 := phaseCode s.phase

/-- `err_o` (60_exceptions R117), meaningful where `read()` is admitted. -/
def errPin (s : State) : BitVec 2 := errCode s.err

/-- `value_o` (60_exceptions R117), meaningful where `read()` is admitted. -/
def valuePin (s : State) : Value := s.value

/-- `len_o` (60_exceptions R117), meaningful where `read()` is admitted. -/
def lenPin (s : State) : BitVec 5 := s.len

/-- `mem_addr_o`, equal to `POS[AW−1:0]` when a byte is read (60_exceptions R117). What it shows when no byte is read (in
IDLE, DONE, FAIL, or in a step that fails before its read) the spec leaves open: here it shows `POS[AW−1:0]` in every
state. DESIGN CHOICE, unsafe, log 25. -/
def memAddrPin (s : State) : Nat := s.pos % 2 ^ s.aw

end Sys2Proof.Machine
end

