-- ==== Sys2Proof/Machine/Step.lean ====
section
/-! DEFINITION. One step of the machine: a host action, or a decoder step (00_scope R10, 60_exceptions R108). -/

namespace Sys2Proof.Machine

/-- The decoder's step (40_generic_decode R70): the tests, the byte at `POS`, and the group it decodes to. -/
def decoderStep (s : State) : Host.Outcome State Fault Refusal :=
  match fetchGroup s with
  | .error o => o
  | .ok b => exec (decodeGroup b) s

/-- One step. The first pending host action is taken off the list and performed; with no action pending the decoder
steps. `WAIT` stays at the head while PHASE = SCAN. Log 1. -/
def step (s : State) : Host.Outcome State Fault Refusal :=
  match s.inputs with
  | [] => decoderStep s
  | .dec :: rest => decoderStep { s with inputs := rest }
  | .wait :: rest => if s.phase = .scan then decoderStep s else .next { s with inputs := rest }
  | .launch c start stop :: rest => exec (decodeLaunch c start stop) { s with inputs := rest }
  | .read :: rest => hostRead { s with inputs := rest }
  | .phase :: rest => hostPhase { s with inputs := rest }
  | .reset :: rest => hostReset { s with inputs := rest }
  | .memWrite a b :: rest => hostMemWrite a b { s with inputs := rest }
  | .peek r :: rest => hostPeek r { s with inputs := rest }

/-- `s` with a table word where the next step takes its instruction. -/
def State.withFetchWord (s : State) (nbits w : Nat) : State := loadTableWord s nbits w

end Sys2Proof.Machine
end

