-- ==== Sys2Proof/Machine/ClosedForm.lean ====
section
/-! DEFINITION. The operation as a function of its span's bytes, in plain arithmetic on numbers: the closed form of
40_generic_decode R85 and the minimal encoding of R89. No step of the machine uses this file; statements compare
the machine with it. -/

namespace Sys2Proof.Machine

/-- How an operation ends: success with the length and the value's bit pattern read as unsigned, or a failure. -/
inductive SpanResult where
  | ok (len value : Nat)
  | failed (c : Cause)
  deriving DecidableEq, Repr

/-- `P_i = b_i[6:0]` as a number. -/
def payloadNat (b : Byte) : Nat := b.toNat % 128

/-- `U = Σ P_i · 2^(7(i−1))`, first byte lowest (30_encoding R54). -/
def assemble : List Byte → Nat
  | [] => 0
  | b :: bs => payloadNat b + 128 * assemble bs

/-- The least index `k ≥ 1` with `b_k[7] = 0` (40_generic_decode R85). -/
def terminatorIndex : List Byte → Option Nat
  | [] => none
  | b :: bs => if b.toNat < 128 then some 1 else (terminatorIndex bs).map (· + 1)

/-- `MAX_GROUPS(bits) = ceil(bits / 7)` (00_scope R5). -/
def groupLimit (bits : Nat) : Nat := (bits + 6) / 7

/-- `P_k[6:used] = f copied 7 − used times` (40_generic_decode R85), by arithmetic. -/
def fillMatches (bits : Nat) (sgn : Bool) (p : Nat) : Bool :=
  let used := bits - 7 * (groupLimit bits - 1)
  p / 2 ^ used == if sgn && p.testBit (used - 1) then 2 ^ (7 - used) - 1 else 0

/-- `decode(bits, sgn, [b_1 ... b_n])` (40_generic_decode R85). -/
def decodeSpan (bits : Nat) (sgn : Bool) (bs : List Byte) : SpanResult :=
  match terminatorIndex (bs.take (groupLimit bits)) with
  | none => if bs.length ≤ groupLimit bits then .failed .truncated else .failed .tooLong
  | some k =>
    let u := assemble (bs.take k)
    let p := payloadNat (bs.getD (k - 1) 0)
    if k = groupLimit bits ∧ fillMatches bits sgn p = false then .failed .overflow
    else if sgn = true ∧ 7 * k < bits ∧ p.testBit 6 = true then .ok k (u % 2 ^ bits + 2 ^ bits - 2 ^ (7 * k))
    else .ok k (u % 2 ^ bits)

/-- The number of decoder steps (40_generic_decode R85, 70_reset_and_hazards R133). -/
def decodeSteps (bits : Nat) (bs : List Byte) : Nat :=
  match terminatorIndex (bs.take (groupLimit bits)) with
  | some k => k
  | none => if bs.length ≤ groupLimit bits then bs.length + 1 else groupLimit bits + 1

/-- A bit pattern of width `bits` read as signed (00_scope R8). -/
def asSigned (bits v : Nat) : Int := if v < 2 ^ (bits - 1) then v else (v : Int) - 2 ^ bits

/-- The mathematical value of the first `k` groups (40_generic_decode R86): `U` for an unsigned operation, and
`U − 2^(7k) · P_k[6]`, the two's-complement reading of a `7k`-bit number, for a signed one. -/
def encodedValue (sgn : Bool) (bs : List Byte) (k : Nat) : Int :=
  (assemble (bs.take k) : Int) - if sgn && (payloadNat (bs.getD (k - 1) 0)).testBit 6 then 2 ^ (7 * k) else 0

/-- Whether `v` is a value of the operation's type (41_decode_ops R97, value range). -/
def inRange (bits : Nat) (sgn : Bool) (v : Int) : Bool :=
  if sgn then decide (-(2 ^ (bits - 1) : Int) ≤ v ∧ v < 2 ^ (bits - 1)) else decide (0 ≤ v ∧ v < 2 ^ bits)

/-- `m` groups suffice for `v` (40_generic_decode R89). -/
def fitsGroups (sgn : Bool) (v : Int) (m : Nat) : Bool :=
  if sgn then decide (-(2 ^ (7 * m - 1) : Int) ≤ v ∧ v < 2 ^ (7 * m - 1)) else decide (0 ≤ v ∧ v < 2 ^ (7 * m))

/-- The encoding of `v` in `m` groups: payload `floor(v / 2^(7(i−1))) mod 128`, flag 1 on all but the last
(40_generic_decode R89, the spec's general knowledge G1). With more groups than the least it is the padded encoding
of 40_generic_decode R88. -/
def encodeIn : Nat → Int → List Byte
  | 0, _ => []
  | 1, v => [BitVec.ofNat 8 (v % 128).toNat]
  | m + 2, v => BitVec.ofNat 8 ((v % 128).toNat + 128) :: encodeIn (m + 1) (v / 128)

end Sys2Proof.Machine
end

