-- ==== Sys2Proof/Safety.lean ====
section
/-! DEFINITION. The terms the claims use: the state invariant (10_state R28, R29), the run of one operation
(70_reset_and_hazards R135), and the result it leaves. -/

namespace Sys2Proof.Machine

/-- Every byte has its continuation flag set. -/
def allContinue (bs : List Byte) : Prop := ∀ b ∈ bs, 128 ≤ b.toNat

/-- What holds of the working registers from a launch until the next launch or reset (10_state R28, first half of
R29), `POS − GROUPCOUNT` being the start of the span. -/
structure WorkingInv (s : State) : Prop where
  shift_eq : s.shift.toNat = 7 * s.groupCount.toNat
  count_le : s.groupCount.toNat ≤ maxGroups s.op
  start_nonneg : s.groupCount.toNat ≤ s.pos
  pos_le_end : s.pos ≤ s.endPos
  end_le : s.endPos ≤ 2 ^ s.aw
  acc_below : s.acc.toNat < 2 ^ s.shift.toNat

/-- While scanning, the accumulator is the concatenation of the payloads read so far (10_state R29), and every byte
read so far was a continuation group. -/
structure ScanInv (s : State) : Prop where
  acc_eq : s.acc.toNat = assemble (spanBytes s.mem (s.pos - s.groupCount.toNat) s.pos)
  continues : allContinue (spanBytes s.mem (s.pos - s.groupCount.toNat) s.pos)

/-- What a finished operation leaves in the result registers (10_state R23 to R25). -/
structure ResultInv (s : State) : Prop where
  width : valueWidth s.value = bits s.op
  done_iff : s.phase = .done ↔ 0 < s.len.toInt
  done_len : s.phase = .done → s.len.toNat = s.groupCount.toNat ∧ s.err = .noError
  fail_len : s.phase = .fail → s.err ≠ .noError ∧ s.len = -((errCode s.err).setWidth 5)

/-- The invariant of the machine. -/
structure MachineInv (s : State) : Prop where
  aw_pos : 0 < s.aw
  mem_wf : s.mem.wf = true
  mem_inside : ∀ c ∈ s.mem, c.1 < 2 ^ s.aw
  pos_fits : s.pos < 2 ^ (s.aw + 1)
  end_fits : s.endPos < 2 ^ (s.aw + 1)
  working : s.phase ≠ .idle → WorkingInv s
  scanning : s.phase = .scan → ScanInv s
  result : s.phase = .done ∨ s.phase = .fail → ResultInv s

/-- The decoder has the next turn (log 1), and `rest` is what is then pending: nothing was, or the turn was given by
`dec`, which is taken off, or by `wait`, which stays while PHASE = SCAN. -/
def DecoderTurn (s : State) (rest : List HostAction) : Prop :=
  s.inputs = [] ∧ rest = [] ∨ s.inputs = .dec :: rest ∨ (∃ r, s.inputs = .wait :: r ∧ rest = .wait :: r)

/-- `WAIT` with a bound: decoder steps until PHASE ≠ SCAN, at most `k` of them. -/
def scanToEnd : Nat → State → Host.Outcome State Fault Refusal
  | 0, s => .next s
  | k + 1, s =>
    if s.phase = .scan then
      match step s with
      | .next t => scanToEnd k t
      | o => o
    else .next s

/-- One whole operation: a launch, then decoder steps until it has ended; `MAX_GROUPS + 1 ≤ 11` suffice
(40_generic_decode R83). -/
def operate (c : OpCode) (start stop : Nat) (s : State) : Host.Outcome State Fault Refusal :=
  match step { s with inputs := [.launch c start stop] } with
  | .next t => scanToEnd 11 t
  | o => o

/-- The host may launch an operation over this span (60_exceptions R112). -/
def Launchable (s : State) (start stop : Nat) : Prop := s.phase ≠ .scan ∧ start ≤ stop ∧ stop ≤ 2 ^ s.aw

/-- The result registers say what a result of the closed form says: the value only on success (60_exceptions R104). -/
def Delivers (s : State) : SpanResult → Prop
  | .ok k v => s.phase = .done ∧ s.err = .noError ∧ s.len.toNat = k ∧ valueWidth s.value = bits s.op ∧
      valueUnsigned s.value = v
  | .failed c => s.phase = .fail ∧ s.err = causeErr c ∧ s.len = causeLen c ∧ valueWidth s.value = bits s.op

/-- Everything a launched operation may not touch: the memory, the parameter, and the host's own record. -/
def SameOutside (s t : State) : Prop := t.aw = s.aw ∧ t.mem = s.mem ∧ t.reply = s.reply

/-- The mathematical value a signed or unsigned operation's `VALUE` is read as (00_scope R8). -/
def valueRead (sgn : Bool) (v : Value) : Int := if sgn then valueSigned v else valueUnsigned v

/-- 41_decode_ops R98 (a) of two operations of one width: the same span is TRUNCATED, or TOO_LONG, for both. -/
def SameScanFailure (s t : State) : Prop :=
  (s.err = .truncated ↔ t.err = .truncated) ∧ (s.err = .tooLong ↔ t.err = .tooLong)

/-- 41_decode_ops R98 (b), (c): what succeeds in 32 bits succeeds in 64 bits with the same value and length. -/
def WidensTo (sgn : Bool) (narrow wide : State) : Prop :=
  narrow.phase = .done →
    wide.phase = .done ∧ wide.len = narrow.len ∧ valueRead sgn wide.value = valueRead sgn narrow.value

/-- 41_decode_ops R98 (d): what a 64-bit success at length `k` says of the 32-bit operation of the same signedness;
`p` is the fifth payload. -/
def NarrowsTo (sgn : Bool) (p : Nat) (wide narrow : State) : Prop :=
  wide.phase = .done →
    (wide.len.toNat ≤ 4 → narrow.phase = .done ∧ narrow.len = wide.len ∧
      valueUnsigned narrow.value = valueUnsigned wide.value % 2 ^ 32) ∧
    (wide.len.toNat = 5 → (narrow.phase = .done ↔ fillMatches 32 sgn p = true)) ∧
    (6 ≤ wide.len.toNat → narrow.phase = .fail ∧ narrow.err = .tooLong)

/-- 41_decode_ops R98 (e) of the unsigned and the signed operation of one width, `m` being MAX_GROUPS and `p` the
`m`-th payload. -/
def SignednessRelated (m : Nat) (common : Nat → Prop) (p : Nat) (u i : State) : Prop :=
  u.phase = .done → i.phase = .done →
    u.len = i.len ∧
    (u.len.toNat < m → valueUnsigned u.value % 2 ^ (7 * u.len.toNat) = valueUnsigned i.value % 2 ^ (7 * u.len.toNat)) ∧
    (u.len.toNat = m → common p ∧ valueUnsigned u.value = valueUnsigned i.value)

/-- The registers the host has a read path to (10_state R33). -/
def SameResult (s t : State) : Prop := t.value = s.value ∧ t.len = s.len ∧ t.err = s.err

/-- The working registers (10_state R13 without PHASE and the result). -/
def SameWorking (s t : State) : Prop :=
  t.op = s.op ∧ t.endPos = s.endPos ∧ t.pos = s.pos ∧ t.acc = s.acc ∧ t.shift = s.shift ∧ t.groupCount = s.groupCount

end Sys2Proof.Machine
end

