-- ==== Sys2Proof/Certificates/Slice0/Obligations.lean ====
section
/-! DEFINITION. The statements for the provers. `bits c`, `opSigned c` and `maxGroups c` are BITS, SIGNED and MAX_GROUPS
of the operation code `c`; a span is given by its start and its exclusive end. -/

open Sys2Proof Sys2Proof.Machine

/-! ### Encodings (spec/30_encoding.md) -/

/-- R57, R15 to R17, R5: the four codes, what each selects, and that there is no fifth. -/
def Obligations.OperationCodes : Prop :=
  (∀ a b, decodeLaunch 0b00#2 a b = .decodeU32 a b ∧ decodeLaunch 0b01#2 a b = .decodeI32 a b ∧
    decodeLaunch 0b10#2 a b = .decodeU64 a b ∧ decodeLaunch 0b11#2 a b = .decodeI64 a b) ∧
  (bits 0b00#2 = 32 ∧ opSigned 0b00#2 = false ∧ maxGroups 0b00#2 = 5) ∧
  (bits 0b01#2 = 32 ∧ opSigned 0b01#2 = true ∧ maxGroups 0b01#2 = 5) ∧
  (bits 0b10#2 = 64 ∧ opSigned 0b10#2 = false ∧ maxGroups 0b10#2 = 10) ∧
  (bits 0b11#2 = 64 ∧ opSigned 0b11#2 = true ∧ maxGroups 0b11#2 = 10) ∧
  ∀ c : OpCode, c = 0b00#2 ∨ c = 0b01#2 ∨ c = 0b10#2 ∨ c = 0b11#2

/-- R60: every byte is a group, 0x00 to 0x7f terminating and 0x80 to 0xff continuing, and no byte is refused. -/
def Obligations.EveryByteIsAGroup : Prop :=
  ∀ b : Byte,
    (b.toNat ≤ 0x7f → decodeGroup b = .groupTerm (BitVec.ofNat 7 b.toNat)) ∧
    (0x80 ≤ b.toNat → decodeGroup b = .groupCont (BitVec.ofNat 7 (b.toNat - 0x80))) ∧
    ∀ aw, decodeWord aw .group b.toNat = .ok (decodeGroup b)

/-- A few words written out from the spec's encodings: R51 (groups), R57 (codes), R58 and R117 (a launch's wires; their
order is the model's choice, log 13). -/
def Obligations.WordsDecode : Prop :=
  decodeWord 8 .group 0b1_0001110 = .ok (.groupCont 0b0001110#7) ∧
  decodeWord 8 .group 0b0_1110000 = .ok (.groupTerm 0b1110000#7) ∧
  decodeWord 8 .opsel 0b000001001_000000100_01 = .ok (.decodeI32 4 9) ∧
  decodeWord 8 .opsel 0b100000000_011111010_00 = .ok (.decodeU32 250 256) ∧
  decodeWord 8 .opsel 0b000000111_000000111_10 = .ok (.decodeU64 7 7) ∧
  decodeWord 8 .opsel 0b000001010_000000000_11 = .ok (.decodeI64 0 10) ∧
  decodeTableWord 2 0b00 = some (.decodeU32 0 0) ∧ decodeTableWord 8 0x80 = some (.groupCont 0#7)

/-- Decoding the encoding of a well-formed instruction gives it back, with every operand. -/
def Obligations.DecodeOfEncode : Prop :=
  ∀ aw i, wellFormed aw i = true → decodeWord aw (encode aw i).1 (encode aw i).2 = .ok i

/-- Each word that decodes is the encoding of what it decodes to, so no two words mean the same. -/
def Obligations.EncodeOfDecode : Prop :=
  ∀ aw f w i, decodeWord aw f w = .ok i → encode aw i = (f, w) ∧ wellFormed aw i = true

/-- R60, R62: a word is rejected only for having more bits than its format. A launch's wires as one number, of
`2 + 2(AW + 1)` bits by the widths of R58 and R117, and the rejection of a wider number are the model's choice
(log 13); the spec's own decoders of a byte and of a code reject nothing. -/
def Obligations.OnlyWideWordsRejected : Prop :=
  ∀ aw w,
    (decodeWord aw .group w = .error .groupTooWide ↔ 2 ^ 8 ≤ w) ∧
    (decodeWord aw .opsel w = .error .launchTooWide ↔ 2 ^ launchWidth aw ≤ w) ∧
    decodeWord aw .group w ≠ .error .launchTooWide ∧ decodeWord aw .opsel w ≠ .error .groupTooWide

/-- R66: each byte matches exactly one GROUP row of the opcode table, and each code exactly one OPSEL row. -/
def Obligations.TableRowsPartition : Prop :=
  (∀ (b : Byte) (i : Instr), (rowOf i).format = .group →
    (b.toNat &&& (rowOf i).mask = (rowOf i).pattern ↔ rowOf (decodeGroup b) = rowOf i)) ∧
  (∀ (c : OpCode) (a b : Nat) (i : Instr), (rowOf i).format = .opsel →
    (c.toNat &&& (rowOf i).mask = (rowOf i).pattern ↔ rowOf (decodeLaunch c a b) = rowOf i))

/-! ### The operations and their launch (spec/41_decode_ops.md, 60_exceptions R112) -/

/-- R31, R112: what executing each of the four operations does from every state that may launch. The equality also says
that VALUE, LEN and ERR keep their raw contents, which R31 only calls unreadable until the operation ends: that they do
is read from R13's column of writers (log 18, DEDUCED). -/
def Obligations.OperationsLaunch : Prop :=
  ∀ s a b, Launchable s a b →
    exec (.decodeU32 a b) s = .next { s with
      phase := .scan, op := 0b00#2, pos := a, endPos := b, acc := 0, shift := 0, groupCount := 0 } ∧
    exec (.decodeI32 a b) s = .next { s with
      phase := .scan, op := 0b01#2, pos := a, endPos := b, acc := 0, shift := 0, groupCount := 0 } ∧
    exec (.decodeU64 a b) s = .next { s with
      phase := .scan, op := 0b10#2, pos := a, endPos := b, acc := 0, shift := 0, groupCount := 0 } ∧
    exec (.decodeI64 a b) s = .next { s with
      phase := .scan, op := 0b11#2, pos := a, endPos := b, acc := 0, shift := 0, groupCount := 0 }

/-- R112: a pending launch is admitted if and only if PHASE ≠ SCAN and start ≤ end ≤ 2^AW, its effect is R31's, the
previous result becomes unreadable, and otherwise it is refused. The model's readings in it: the pending list is log 1;
that VALUE, LEN and ERR keep their raw contents, unreadable (R31), is read from R13's column of writers (log 18,
DEDUCED); that a refused launch or read is an outcome with a name is log 11 (R118 lets a model have no step there). -/
def Obligations.LaunchAdmission : Prop :=
  ∀ s c a b rest, s.inputs = .launch c a b :: rest →
    (Launchable s a b →
      step s = .next { s with
        inputs := rest, phase := .scan, op := c, pos := a, endPos := b, acc := 0, shift := 0, groupCount := 0 } ∧
      ∀ t, step s = .next t → step { t with inputs := [.read] } = .refused .noResult) ∧
    (s.phase = .scan → step s = .refused .launchWhileScanning) ∧
    (s.phase ≠ .scan → ¬(a ≤ b ∧ b ≤ 2 ^ s.aw) → step s = .refused .illegalSpan)

/-- Frame of the four operations: the memory, AW, the result registers (their raw contents, which no host can read
then: log 18, DEDUCED from R13) and the model's own fields stay. -/
def Obligations.OperationsFrame : Prop :=
  ∀ s t a b i, i = .decodeU32 a b ∨ i = .decodeI32 a b ∨ i = .decodeU64 a b ∨ i = .decodeI64 a b →
    exec i s = .next t →
    SameOutside s t ∧ SameResult s t ∧ t.inputs = s.inputs ∧ t.draws = s.draws ∧
      ∀ x, t.mem.read x = s.mem.read x

/-! ### The two kinds of group (spec/40_generic_decode.md) -/

/-- R75: the continuation group, from every scanning state. -/
def Obligations.GroupContEffect : Prop :=
  ∀ s p, s.phase = .scan →
    exec (.groupCont p) s = .next { s with
      pos := s.pos + 1
      acc := s.acc ||| (p.setWidth 70 <<< s.shift.toNat)
      shift := s.shift + 7
      groupCount := s.groupCount + 1 }

/-- R76, R77 to R82: the terminating group, from every scanning state. `S` is SHIFT after the increment and `used` the
clamped USED of R77. -/
def Obligations.GroupTermEffect : Prop :=
  ∀ s p, s.phase = .scan →
    ∃ t, exec (.groupTerm p) s = .next t ∧
      t.pos = s.pos + 1 ∧ t.acc = s.acc ||| (p.setWidth 70 <<< s.shift.toNat) ∧
      t.shift = s.shift + 7 ∧ t.groupCount = s.groupCount + 1 ∧
      let S := (s.shift + 7).toNat
      let used := min 7 (bits s.op - (S - 7))
      let pass := ∀ j, used ≤ j → j ≤ 6 → p.getLsbD j = (opSigned s.op && p.getLsbD (used - 1))
      (used = 7 ∨ pass →
        t.phase = .done ∧ t.err = .noError ∧ t.len = (s.groupCount + 1).setWidth 5 ∧
        valueWidth t.value = bits s.op ∧ t.draws = s.draws ∧
        ∀ j, j < bits s.op → (valueUnsigned t.value).testBit j =
          (t.acc.getLsbD j || (opSigned s.op && decide (S < bits s.op) && p.getLsbD 6 && decide (S ≤ j)))) ∧
      (¬(used = 7 ∨ pass) →
        t.phase = .fail ∧ t.err = .overflow ∧ t.len = 0b11101#5 ∧ valueWidth t.value = bits s.op)

/-- Frame of the two groups: memory, AW, END, OP and the model's host record stay; a continuation group leaves PHASE
and the result registers too. -/
def Obligations.GroupsFrame : Prop :=
  ∀ s t p,
    (exec (.groupCont p) s = .next t →
      SameOutside s t ∧ SameResult s t ∧ t.phase = s.phase ∧ t.op = s.op ∧ t.endPos = s.endPos ∧
        t.inputs = s.inputs ∧ t.draws = s.draws ∧ ∀ x, t.mem.read x = s.mem.read x) ∧
    (exec (.groupTerm p) s = .next t →
      SameOutside s t ∧ t.op = s.op ∧ t.endPos = s.endPos ∧ t.inputs = s.inputs ∧
        ∀ x, t.mem.read x = s.mem.read x)

/-- R70: outside SCAN the decoder has no step, so no group runs. -/
def Obligations.NoGroupOutsideScan : Prop :=
  ∀ s p, s.phase ≠ .scan →
    exec (.groupCont p) s = .fault .noDecoderStep ∧ exec (.groupTerm p) s = .fault .noDecoderStep ∧
    (s.inputs = [] → step s = .fault .noDecoderStep)

/-- R72: in every reachable scanning state the OR places the payload exactly. -/
def Obligations.AccumulationExact : Prop :=
  ∀ s t b, MachineInv s → s.phase = .scan → s.groupCount.toNat ≠ maxGroups s.op → exec (decodeGroup b) s = .next t →
    t.acc = s.acc ||| ((payloadOf b).setWidth 70 <<< s.shift.toNat) ∧
    s.shift.toNat ≤ 63 ∧ (bits s.op = 32 → s.shift.toNat ≤ 28) ∧
    (∀ j, s.shift.toNat ≤ j → j < s.shift.toNat + 7 →
      s.acc.getLsbD j = false ∧ t.acc.getLsbD j = (payloadOf b).getLsbD (j - s.shift.toNat)) ∧
    (∀ j, ¬(s.shift.toNat ≤ j ∧ j < s.shift.toNat + 7) → t.acc.getLsbD j = s.acc.getLsbD j) ∧
    t.acc.toNat = s.acc.toNat + (payloadOf b).toNat * 2 ^ s.shift.toNat

/-- R74: the counters move on every step that reads a byte and on no other decoder step, and never wrap. -/
def Obligations.CountersExact : Prop :=
  ∀ s t, MachineInv s → s.phase = .scan → s.inputs = [] → step s = .next t →
    (s.pos ≠ s.endPos ∧ s.groupCount.toNat ≠ maxGroups s.op →
      t.shift.toNat = s.shift.toNat + 7 ∧ t.groupCount.toNat = s.groupCount.toNat + 1 ∧
      t.shift.toNat ≤ 70 ∧ t.groupCount.toNat ≤ 10) ∧
    (s.pos = s.endPos ∨ s.groupCount.toNat = maxGroups s.op →
      t.shift = s.shift ∧ t.groupCount = s.groupCount)

/-- R78 with R77's values: USED and OVF of group `g` of each operation. -/
def Obligations.OverflowRegionSize : Prop :=
  ∀ c g, 1 ≤ g → g ≤ maxGroups c →
    overflowBits c (7 * g) = 7 - usedBits c (7 * g) ∧
    (g < maxGroups c → usedBits c (7 * g) = 7 ∧ overflowBits c (7 * g) = 0) ∧
    (g = maxGroups c → bits c = 32 → usedBits c (7 * g) = 4 ∧ overflowBits c (7 * g) = 3) ∧
    (g = maxGroups c → bits c = 64 → usedBits c (7 * g) = 1 ∧ overflowBits c (7 * g) = 6)

/-- R80: a terminating group in the last possible position succeeds exactly on the listed payloads and fails with
OVERFLOW on every other; in an earlier position nothing is required. -/
def Obligations.LastGroupPassList : Prop :=
  ∀ s p g, s.phase = .scan → s.shift.toNat = 7 * (g - 1) → 1 ≤ g → g ≤ maxGroups s.op →
    ∃ t, exec (.groupTerm p) s = .next t ∧
      (g < maxGroups s.op → t.phase = .done) ∧
      (g = maxGroups s.op →
        (s.op = 0b00#2 → (t.phase = .done ↔ p.toNat ≤ 0x0f)) ∧
        (s.op = 0b01#2 → (t.phase = .done ↔ p.toNat ≤ 0x07 ∨ 0x78 ≤ p.toNat)) ∧
        (s.op = 0b10#2 → (t.phase = .done ↔ p.toNat = 0x00 ∨ p.toNat = 0x01)) ∧
        (s.op = 0b11#2 → (t.phase = .done ↔ p.toNat = 0x00 ∨ p.toNat = 0x7f)) ∧
        (t.phase ≠ .done → t.phase = .fail ∧ t.err = .overflow))

/-- R55, R81: below SHIFT a delivered value is the accumulator, at and above it the sign fill of a signed operation
and zeros of an unsigned one; the fill is empty exactly in the last group. -/
def Obligations.SignExtension : Prop :=
  ∀ s t p, MachineInv s → s.phase = .scan → s.groupCount.toNat ≠ maxGroups s.op →
    exec (.groupTerm p) s = .next t → t.phase = .done →
    (∀ j, j < bits s.op → (valueUnsigned t.value).testBit j =
      if j < t.shift.toNat then t.acc.getLsbD j else opSigned s.op && p.getLsbD 6) ∧
    (t.shift.toNat < bits s.op ↔ t.groupCount.toNat < maxGroups s.op)

/-! ### The decoder's step, its failures, and the whole step -/

/-- A step runs the decoded instruction: the byte at POS in a scan (the decoder having its turn by an empty list, by
`dec` or by `wait`), the code and span of a launch otherwise. -/
def Obligations.StepRunsDecoded : Prop :=
  ∀ s rest,
    (s.phase = .scan → s.pos ≠ s.endPos → s.groupCount.toNat ≠ maxGroups s.op → s.pos < 2 ^ s.aw →
      (s.inputs = [] → step s = exec (decodeGroup (s.mem.read s.pos)) s) ∧
      (s.inputs = .dec :: rest → step s = exec (decodeGroup (s.mem.read s.pos)) { s with inputs := rest }) ∧
      (s.inputs = .wait :: rest → step s = exec (decodeGroup (s.mem.read s.pos)) s)) ∧
    (∀ c a b, s.inputs = .launch c a b :: rest → step s = exec (decodeLaunch c a b) { s with inputs := rest })

/-- R104 with the conditions of R101 to R103: failure entry for each cause, complete, whichever way the decoder has its
turn (log 1), with the decoder stopped after it. The model's choices in it: VALUE takes a free value (log 6) and the
draw counter moves on (log 7); the stop after a failure is the stuck state noDecoderStep (log 8). -/
def Obligations.FailureEntry : Prop :=
  ∀ s, s.phase = .scan →
    (∀ rest, DecoderTurn s rest → s.pos = s.endPos → step s = .next { s with
      inputs := rest
      phase := .fail, err := .truncated, len := 0b11111#5, value := drawValue s.op s.draws, draws := s.draws + 1 }) ∧
    (∀ rest, DecoderTurn s rest → s.pos ≠ s.endPos → s.groupCount.toNat = maxGroups s.op → step s = .next { s with
      inputs := rest
      phase := .fail, err := .tooLong, len := 0b11110#5, value := drawValue s.op s.draws, draws := s.draws + 1 }) ∧
    (∀ p, fillOk s.op (s.shift + 7).toNat p = false → exec (.groupTerm p) s = .next { s with
      pos := s.pos + 1, acc := s.acc ||| (p.setWidth 70 <<< s.shift.toNat), shift := s.shift + 7
      groupCount := s.groupCount + 1
      phase := .fail, err := .overflow, len := 0b11101#5, value := drawValue s.op s.draws, draws := s.draws + 1 }) ∧
    ∀ t, step s = .next t → t.phase = .fail →
      decoderStep t = .fault .noDecoderStep ∧ (s.inputs = [] → step t = .fault .noDecoderStep)

/-- R14: the codes of PHASE and every way it can change. -/
def Obligations.PhaseTransitions : Prop :=
  (phaseCode .idle = 0b00#2 ∧ phaseCode .scan = 0b01#2 ∧ phaseCode .done = 0b10#2 ∧ phaseCode .fail = 0b11#2) ∧
  (∀ s t, step s = .next t →
    (s.inputs.head? = some .reset → t.phase = .idle) ∧
    (∀ c a b, s.inputs.head? = some (.launch c a b) → s.phase ≠ .scan ∧ t.phase = .scan) ∧
    (t.phase ≠ s.phase →
      s.inputs.head? = some .reset ∨ (∃ c a b, s.inputs.head? = some (.launch c a b)) ∨
      (s.inputs.head? = none ∨ s.inputs.head? = some .dec ∨ s.inputs.head? = some .wait) ∧
        s.phase = .scan ∧ (t.phase = .done ∨ t.phase = .fail))) ∧
  (∀ s, s.phase ≠ .scan → decoderStep s = .fault .noDecoderStep) ∧
  (∀ s rest, s.inputs = .phase :: rest → step s = .next { s with inputs := rest, reply := some (.phase s.phase) })

/-- R39, R91: no step writes the memory but the host's own write, and none changes AW. -/
def Obligations.NeverWritesMemory : Prop :=
  ∀ s t, step s = .next t →
    t.aw = s.aw ∧ ((∀ a b, s.inputs.head? ≠ some (.memWrite a b)) → t.mem = s.mem)

/-- R38, R40, R91: a decoder step reads the byte at POS and no other, that byte is inside the span, and a step that
fails before its read reads none. (That `mem_addr_o` shows POS before a step that reads nothing, at
GROUPCOUNT = MAX_GROUPS, is the model's choice, log 25.) -/
def Obligations.ReadsOnlyAtPos : Prop :=
  ∀ s t m, s.phase = .scan → s.inputs = [] → step s = .next t →
    (m.read s.pos = s.mem.read s.pos ∨ s.pos = s.endPos ∨ s.groupCount.toNat = maxGroups s.op →
      step { s with mem := m } = .next { t with mem := m }) ∧
    (MachineInv s → s.pos ≠ s.endPos →
      s.pos - s.groupCount.toNat ≤ s.pos ∧ s.pos < s.endPos ∧ s.pos < 2 ^ s.aw ∧ memAddrPin s = s.pos)

/-- R83: from every reachable scanning state the operation ends within `MAX_GROUPS − GROUPCOUNT + 1` decoder steps. -/
def Obligations.ScanEnds : Prop :=
  ∀ s, MachineInv s → s.phase = .scan → s.inputs = [] →
    ∃ t, scanToEnd (maxGroups s.op - s.groupCount.toNat + 1) s = .next t ∧ (t.phase = .done ∨ t.phase = .fail) ∧
      t.groupCount.toNat ≤ maxGroups s.op

/-! ### Invariants -/

/-- The invariant holds after reset, whatever the unspecified registers hold. -/
def Obligations.InvAtReset : Prop := MachineInv State.reset

/-- R28, R29 and the result contract of R23 to R25 are kept by every step. -/
def Obligations.InvKept : Prop := ∀ s t, MachineInv s → step s = .next t → MachineInv t

/-- R24, R25: the length contract of every reachable result. -/
def Obligations.LengthContract : Prop :=
  ∀ s, MachineInv s →
    (s.phase = .done → 1 ≤ s.len.toInt ∧ s.len.toInt ≤ maxGroups s.op ∧ s.len.toNat = s.groupCount.toNat ∧
      s.err = .noError) ∧
    (s.phase = .fail → s.len.toInt = -(errCode s.err).toNat ∧ s.len.toInt ≤ -1 ∧ s.err ≠ .noError)

/-! ### Whole operations -/

/-- R85: a launched operation ends as the closed form says, after exactly the closed form's number of decoder steps,
whatever the state before the launch, and touches nothing outside the ten registers. -/
def Obligations.OperationMeetsClosedForm : Prop :=
  ∀ s c a b, Launchable s a b →
    ∃ t₀ t, step { s with inputs := [.launch c a b] } = .next t₀ ∧
      (∀ j, j < decodeSteps (bits c) (spanBytes s.mem a b) → ∃ u, scanToEnd j t₀ = .next u ∧ u.phase = .scan) ∧
      scanToEnd (decodeSteps (bits c) (spanBytes s.mem a b)) t₀ = .next t ∧
      operate c a b s = .next t ∧
      Delivers t (decodeSpan (bits c) (opSigned c) (spanBytes s.mem a b)) ∧ SameOutside s t

/-- R86: the value of an encoding of `k ≤ MAX_GROUPS` groups, and that it succeeds exactly when it fits. -/
def Obligations.ValueTheorem : Prop :=
  ∀ s c a b k, Launchable s a b → terminatorIndex ((spanBytes s.mem a b).take (maxGroups c)) = some k →
    ∃ t, operate c a b s = .next t ∧
      (t.phase = .done ↔ inRange (bits c) (opSigned c) (encodedValue (opSigned c) (spanBytes s.mem a b) k) = true) ∧
      (t.phase = .done → t.len.toNat = k ∧
        valueRead (opSigned c) t.value = encodedValue (opSigned c) (spanBytes s.mem a b) k) ∧
      (k < maxGroups c → t.phase = .done) ∧
      (t.phase ≠ .done → t.err = .overflow)

/-- R87, R88 (with R89's encoder): every value of the operation's range, encoded in the least number of groups or in
any larger number up to MAX_GROUPS, decodes to itself with that length; bytes after it do not matter. (R89's encoder is
the spec's general knowledge, 93 G1; its division is log 21, PRESUMED.) -/
def Obligations.EncodedValuesDecode : Prop :=
  ∀ s c a b m v, Launchable s a b → inRange (bits c) (opSigned c) v = true → 1 ≤ m → m ≤ maxGroups c →
    fitsGroups (opSigned c) v m = true → (spanBytes s.mem a b).take m = encodeIn m v →
    ∃ t, operate c a b s = .next t ∧ t.phase = .done ∧ t.len.toNat = m ∧ valueRead (opSigned c) t.value = v

/-- R87: every value of the operation's range has an encoding of at most MAX_GROUPS groups. The encoding is that of R89,
which the spec marks as general knowledge and not in the source (93 G1), with the model's reading of its division
(log 21, PRESUMED). The clause on the length holds whatever the payloads are; the first clause is the one about `v`. -/
def Obligations.EveryValueHasAnEncoding : Prop :=
  ∀ c v, inRange (bits c) (opSigned c) v = true →
    fitsGroups (opSigned c) v (maxGroups c) = true ∧ (encodeIn (maxGroups c) v).length = maxGroups c

/-- R90: MAX_GROUPS groups with a valid terminator succeed; MAX_GROUPS continuation groups and a further byte fail with
TOO_LONG whatever that byte and all later ones are. -/
def Obligations.GroupLimitBoundary : Prop :=
  ∀ s c a b, Launchable s a b → allContinue ((spanBytes s.mem a b).take (maxGroups c - 1)) →
    maxGroups c ≤ b - a →
    let last := s.mem.read (a + (maxGroups c - 1))
    (last.toNat < 128 → fillMatches (bits c) (opSigned c) (payloadNat last) = true →
      ∃ t, operate c a b s = .next t ∧ t.phase = .done ∧ t.len.toNat = maxGroups c) ∧
    (128 ≤ last.toNat → maxGroups c < b - a →
      ∃ t, operate c a b s = .next t ∧ t.phase = .fail ∧ t.err = .tooLong) ∧
    (128 ≤ last.toNat → maxGroups c = b - a →
      ∃ t, operate c a b s = .next t ∧ t.phase = .fail ∧ t.err = .truncated)

/-- R12: the result depends only on the code, the first MAX_GROUPS bytes of the span and whether there is a further
one: not on the positions, the rest of memory, AW, or anything an earlier operation left. -/
def Obligations.ResultIsPure : Prop :=
  ∀ s₁ s₂ c a₁ b₁ a₂ b₂, Launchable s₁ a₁ b₁ → Launchable s₂ a₂ b₂ →
    (spanBytes s₁.mem a₁ b₁).take (maxGroups c) = (spanBytes s₂.mem a₂ b₂).take (maxGroups c) →
    (maxGroups c < b₁ - a₁ ↔ maxGroups c < b₂ - a₂) →
    ∃ t₁ t₂, operate c a₁ b₁ s₁ = .next t₁ ∧ operate c a₂ b₂ s₂ = .next t₂ ∧
      t₁.phase = t₂.phase ∧ t₁.len = t₂.len ∧ t₁.err = t₂.err ∧ (t₁.phase = .done → t₁.value = t₂.value)

/-- R98 (a) to (e): how the four operations are related on one span. -/
def Obligations.OperationsRelated : Prop :=
  ∀ s a b, Launchable s a b →
    ∃ u32 i32 u64 i64,
      operate 0b00#2 a b s = .next u32 ∧ operate 0b01#2 a b s = .next i32 ∧
      operate 0b10#2 a b s = .next u64 ∧ operate 0b11#2 a b s = .next i64 ∧
      SameScanFailure u32 i32 ∧ SameScanFailure u64 i64 ∧
      WidensTo false u32 u64 ∧ WidensTo true i32 i64 ∧
      NarrowsTo false (payloadNat (s.mem.read (a + 4))) u64 u32 ∧
      NarrowsTo true (payloadNat (s.mem.read (a + 4))) i64 i32 ∧
      SignednessRelated 5 (· ≤ 7) (payloadNat (s.mem.read (a + 4))) u32 i32 ∧
      SignednessRelated 10 (· = 0) (payloadNat (s.mem.read (a + 9))) u64 i64

/-! ### The host's other actions (spec/60_exceptions.md, spec/70_reset_and_hazards.md) -/

/-- R113: read() is admitted in DONE and FAIL only, changes no register, and in FAIL answers a fresh draw for the
value. -/
def Obligations.ReadResult : Prop :=
  ∀ s rest, s.inputs = .read :: rest →
    (s.phase = .done → step s = .next { s with inputs := rest, reply := some (.result s.value s.len s.err) }) ∧
    (s.phase = .fail → step s = .next { s with
      inputs := rest, reply := some (.result (drawValue s.op s.draws) s.len s.err), draws := s.draws + 1 }) ∧
    (s.phase = .idle ∨ s.phase = .scan → step s = .refused .noResult) ∧
    ∀ n, valueWidth (drawValue s.op n) = bits s.op

/-- R114: phase() is always admitted and changes nothing; DONE if and only if LEN > 0 whenever a result is readable. -/
def Obligations.ReadPhase : Prop :=
  (∀ s rest, s.inputs = .phase :: rest →
    step s = .next { s with inputs := rest, reply := some (.phase s.phase) }) ∧
  (∀ s, MachineInv s → s.phase = .done ∨ s.phase = .fail → (s.phase = .done ↔ 0 < s.len.toInt))

/-- R123, R124: reset is admitted in every phase; PHASE becomes IDLE and every other register a free value; no result
is readable after it and the decoder has no step. Memory and AW stay (log 23). -/
def Obligations.ResetAction : Prop :=
  ∀ s rest, s.inputs = .reset :: rest →
    ∃ t, step s = .next t ∧ t.phase = .idle ∧ t.op = Config.freeOp s.draws ∧
      t.acc = Config.freeAcc s.draws ∧ t.shift = Config.freeShift s.draws ∧
      t.groupCount = Config.freeGroupCount s.draws ∧ t.pos = Config.freePos s.draws % 2 ^ (s.aw + 1) ∧
      t.endPos = Config.freeEnd s.draws % 2 ^ (s.aw + 1) ∧ t.value = Config.freeValue s.draws ∧
      t.len = Config.freeLen s.draws ∧ t.err = Config.freeErr s.draws ∧
      SameOutside s t ∧ t.inputs = rest ∧
      step { t with inputs := [.read] } = .refused .noResult ∧ step { t with inputs := [] } = .fault .noDecoderStep

/-- R118: the five refusals. That each is an outcome with a name is log 11; the host's memory write as an action, its span
starting at POS − GROUPCOUNT, and the refusal even of a write of the same byte are log 10; the access to a hidden
register as an action is log 12. R118 itself says that a model has no step for these. -/
def Obligations.Refusals : Prop :=
  ∀ s rest,
    (∀ c a b, s.inputs = .launch c a b :: rest → s.phase = .scan → step s = .refused .launchWhileScanning) ∧
    (∀ c a b, s.inputs = .launch c a b :: rest → s.phase ≠ .scan → a > b ∨ b > 2 ^ s.aw →
      step s = .refused .illegalSpan) ∧
    (s.inputs = .read :: rest → s.phase = .idle ∨ s.phase = .scan → step s = .refused .noResult) ∧
    (∀ a x, s.inputs = .memWrite a x :: rest → MachineInv s → s.phase = .scan →
      s.pos - s.groupCount.toNat ≤ a → a < s.endPos → step s = .refused .spanWriteWhileScanning) ∧
    (∀ r, s.inputs = .peek r :: rest → step s = .refused .hiddenRegister)

/-- R129, R109: a result stays unchanged until the next launch or reset. -/
def Obligations.ResultStays : Prop :=
  ∀ s t, step s = .next t → s.phase = .done ∨ s.phase = .fail →
    s.inputs.head? ≠ some .reset → (∀ c a b, s.inputs.head? ≠ some (.launch c a b)) →
    t.phase = s.phase ∧ SameResult s t ∧ SameWorking s t

/-- R46, R50, R126: the host's own write, admitted outside a scan and off the span, changes that byte and no other and
no register (the action is the model's reading of R46, log 10). -/
def Obligations.HostWrites : Prop :=
  ∀ s a x rest, s.inputs = .memWrite a x :: rest → s.mem.wf = true → a < 2 ^ s.aw →
    s.phase ≠ .scan ∨ a < s.pos - s.groupCount.toNat ∨ s.endPos ≤ a →
    ∃ t, step s = .next t ∧ t.mem.read a = x ∧ (∀ y, y ≠ a → t.mem.read y = s.mem.read y) ∧ t.mem.wf = true ∧
      t.phase = s.phase ∧ SameWorking s t ∧ SameResult s t ∧ t.aw = s.aw

/-- R64: WAIT gives the decoder its steps while PHASE = SCAN and does nothing after. -/
def Obligations.WaitAction : Prop :=
  ∀ s rest, s.inputs = .wait :: rest →
    (s.phase = .scan → step s = decoderStep s) ∧ (s.phase ≠ .scan → step s = .next { s with inputs := rest })
end

