-- ==== Sys2Proof/Laws/Memory.lean ====
section
/-! SUPPORT. The byte memory: read after write, the canonical form, and that equal contents are equal data. -/

namespace Sys2Proof.Machine

theorem Memory.wf_cons {k : Nat} {v : Byte} {m : Memory} :
    Memory.wf ((k, v) :: m) = true ↔ v ≠ Memory.unlisted ∧ (∀ c ∈ m, k < c.1) ∧ Memory.wf m = true := by
  simp [Memory.wf, and_assoc]

/-- An address no entry holds reads as an unlisted one. -/
theorem Memory.read_of_forall_ne {m : Memory} {a : Nat} (h : ∀ c ∈ m, c.1 ≠ a) : m.read a = Memory.unlisted := by
  induction m with
  | nil => rfl
  | cons c m ih =>
    obtain ⟨k, v⟩ := c
    have hk : a ≠ k := fun e => h (k, v) (by simp) e.symm
    simpa [Memory.read, hk] using ih fun c hc => h c (by simp [hc])

/-- Below every listed address the memory reads as unlisted. -/
theorem Memory.read_of_forall_lt {m : Memory} {a : Nat} (h : ∀ c ∈ m, a < c.1) : m.read a = Memory.unlisted :=
  Memory.read_of_forall_ne fun c hc => Nat.ne_of_gt (h c hc)

/-- Every entry after a write is an old one or the one written. -/
theorem Memory.mem_write {m : Memory} {a : Nat} {b : Byte} {c : Host.Cell} (h : c ∈ m.write a b) :
    c ∈ m ∨ c = (a, b) := by
  induction m with
  | nil =>
    simp only [Memory.write] at h
    split at h <;> simp_all
  | cons d m ih =>
    obtain ⟨k, v⟩ := d
    simp only [Memory.write] at h
    split at h
    · split at h <;> simp_all
      tauto
    · split at h
      · split at h
        · simp [h]
        · simp only [List.mem_cons] at h ⊢; tauto
      · simp only [List.mem_cons] at h ⊢
        rcases h with h | h
        · simp [h]
        · rcases ih h with h | h <;> simp [h]

/-- A write keeps the canonical form. -/
theorem Memory.write_wf {m : Memory} (h : m.wf = true) (a : Nat) (b : Byte) : (m.write a b).wf = true := by
  induction m with
  | nil => by_cases hb : b = Memory.unlisted <;> simp [Memory.write, Memory.wf, hb]
  | cons d m ih =>
    obtain ⟨k, v⟩ := d
    obtain ⟨hv, hk, hm⟩ := Memory.wf_cons.mp h
    simp only [Memory.write]
    by_cases hlt : a < k
    · by_cases hb : b = Memory.unlisted
      · simpa [hlt, hb] using h
      · simp only [hlt, hb, if_true, if_false]
        refine Memory.wf_cons.mpr ⟨hb, ?_, h⟩
        intro c hc
        rcases List.mem_cons.mp hc with rfl | hc
        · exact hlt
        · exact hlt.trans (hk c hc)
    · by_cases he : a = k
      · subst he
        by_cases hb : b = Memory.unlisted
        · simpa [hb] using hm
        · simpa [hb] using Memory.wf_cons.mpr ⟨hb, hk, hm⟩
      · simp only [hlt, he, if_false]
        refine Memory.wf_cons.mpr ⟨hv, ?_, ih hm⟩
        intro c hc
        rcases Memory.mem_write hc with hc | rfl
        · exact hk c hc
        · show k < a; omega

/-- A write leaves every other address alone. -/
theorem Memory.read_write_other (m : Memory) {a a' : Nat} (b : Byte) (h : a' ≠ a) :
    (m.write a b).read a' = m.read a' := by
  induction m with
  | nil =>
    simp only [Memory.write]
    split <;> simp [Memory.read, h]
  | cons d m ih =>
    obtain ⟨k, v⟩ := d
    simp only [Memory.write]
    by_cases hlt : a < k
    · by_cases hb : b = Memory.unlisted <;> simp [Memory.read, hlt, hb, h]
    · by_cases he : a = k
      · subst he
        by_cases hb : b = Memory.unlisted <;> simp [Memory.read, hb, h]
      · simp [Memory.read, hlt, he, ih]

/-- Reading back what was written. -/
theorem Memory.read_write_same {m : Memory} (h : m.wf = true) (a : Nat) (b : Byte) :
    (m.write a b).read a = b := by
  induction m with
  | nil => by_cases hb : b = Memory.unlisted <;> simp [Memory.write, Memory.read, hb]
  | cons d m ih =>
    obtain ⟨k, v⟩ := d
    obtain ⟨-, hk, hm⟩ := Memory.wf_cons.mp h
    simp only [Memory.write]
    by_cases hlt : a < k
    · by_cases hb : b = Memory.unlisted
      · have hne : a ≠ k := by omega
        simpa [Memory.read, hlt, hb, hne] using Memory.read_of_forall_lt fun c hc => hlt.trans (hk c hc)
      · simp [Memory.read, hlt, hb]
    · by_cases he : a = k
      · subst he
        by_cases hb : b = Memory.unlisted
        · simpa [hb] using Memory.read_of_forall_lt hk
        · simp [Memory.read, hb]
      · simp [Memory.read, hlt, he, ih hm]

/-- Canonical memories with the same contents are the same data. -/
theorem Memory.eq_of_read_eq {m m' : Memory} (h : m.wf = true) (h' : m'.wf = true)
    (hr : ∀ a, m.read a = m'.read a) : m = m' := by
  induction m generalizing m' with
  | nil =>
    cases m' with
    | nil => rfl
    | cons d m' =>
      obtain ⟨k, v⟩ := d
      obtain ⟨hv, -, -⟩ := Memory.wf_cons.mp h'
      exact absurd (hr k).symm (by simpa [Memory.read] using hv)
  | cons d m ih =>
    obtain ⟨k, v⟩ := d
    obtain ⟨hv, hk, hm⟩ := Memory.wf_cons.mp h
    cases m' with
    | nil => exact absurd (hr k) (by simpa [Memory.read] using hv)
    | cons d' m' =>
      obtain ⟨k', v'⟩ := d'
      obtain ⟨hv', hk', hm'⟩ := Memory.wf_cons.mp h'
      have hkk : k = k' := by
        rcases Nat.lt_trichotomy k k' with hlt | he | hlt
        · have h1 := hr k
          rw [Memory.read_of_forall_lt (m := (k', v') :: m') fun c hc => by
            rcases List.mem_cons.mp hc with rfl | hc
            · exact hlt
            · exact hlt.trans (hk' c hc)] at h1
          exact absurd h1 (by simpa [Memory.read] using hv)
        · exact he
        · have h1 := hr k'
          rw [Memory.read_of_forall_lt (m := (k, v) :: m) fun c hc => by
            rcases List.mem_cons.mp hc with rfl | hc
            · exact hlt
            · exact hlt.trans (hk c hc)] at h1
          exact absurd h1.symm (by simpa [Memory.read] using hv')
      subst hkk
      have hvv : v = v' := by simpa [Memory.read] using hr k
      subst hvv
      have : m = m' := ih hm hm' fun a => by
        by_cases ha : a = k
        · subst ha
          rw [Memory.read_of_forall_lt hk, Memory.read_of_forall_lt hk']
        · simpa [Memory.read, ha] using hr a
      rw [this]

/-- The bytes of a span do not see a write outside it. -/
theorem spanBytes_write_outside (m : Memory) {a start stop : Nat} (b : Byte) (h : a < start ∨ stop ≤ a) :
    spanBytes (m.write a b) start stop = spanBytes m start stop := by
  refine List.map_congr_left fun x hx => Memory.read_write_other m b ?_
  have := List.mem_range'_1.mp hx
  omega

/-- A span grows by its last byte. -/
theorem spanBytes_succ (m : Memory) {start stop : Nat} (h : start ≤ stop) :
    spanBytes m start (stop + 1) = spanBytes m start stop ++ [m.read stop] := by
  have h1 : stop + 1 - start = (stop - start) + 1 := by omega
  have h2 : start + (stop - start) = stop := by omega
  simp [spanBytes, h1, List.range'_concat, h2]

/-- A span begins with its first byte. -/
theorem spanBytes_cons (m : Memory) {start stop : Nat} (h : start < stop) :
    spanBytes m start stop = m.read start :: spanBytes m (start + 1) stop := by
  have h1 : stop - start = (stop - (start + 1)) + 1 := by omega
  simp [spanBytes, h1, List.range'_succ]

@[simp] theorem spanBytes_length (m : Memory) (start stop : Nat) : (spanBytes m start stop).length = stop - start := by
  simp [spanBytes]

end Sys2Proof.Machine
end

