-- ==== Sys2Proof/Laws/State.lean ====
section
/-! SUPPORT. One lemma per field per update of the state, so that no proof unfolds a record update. -/

namespace Sys2Proof.Machine

/-! ### startScan -/
@[simp] theorem startScan_phase (c : OpCode) (a b : Nat) (s : State) : (startScan c a b s).phase = .scan := rfl
@[simp] theorem startScan_op (c : OpCode) (a b : Nat) (s : State) : (startScan c a b s).op = c := rfl
@[simp] theorem startScan_endPos (c : OpCode) (a b : Nat) (s : State) : (startScan c a b s).endPos = b := rfl
@[simp] theorem startScan_pos (c : OpCode) (a b : Nat) (s : State) : (startScan c a b s).pos = a := rfl
@[simp] theorem startScan_acc (c : OpCode) (a b : Nat) (s : State) : (startScan c a b s).acc = 0 := rfl
@[simp] theorem startScan_shift (c : OpCode) (a b : Nat) (s : State) : (startScan c a b s).shift = 0 := rfl
@[simp] theorem startScan_groupCount (c : OpCode) (a b : Nat) (s : State) : (startScan c a b s).groupCount = 0 := rfl
@[simp] theorem startScan_value (c : OpCode) (a b : Nat) (s : State) : (startScan c a b s).value = s.value := rfl
@[simp] theorem startScan_len (c : OpCode) (a b : Nat) (s : State) : (startScan c a b s).len = s.len := rfl
@[simp] theorem startScan_err (c : OpCode) (a b : Nat) (s : State) : (startScan c a b s).err = s.err := rfl
@[simp] theorem startScan_aw (c : OpCode) (a b : Nat) (s : State) : (startScan c a b s).aw = s.aw := rfl
@[simp] theorem startScan_mem (c : OpCode) (a b : Nat) (s : State) : (startScan c a b s).mem = s.mem := rfl
@[simp] theorem startScan_inputs (c : OpCode) (a b : Nat) (s : State) : (startScan c a b s).inputs = s.inputs := rfl
@[simp] theorem startScan_reply (c : OpCode) (a b : Nat) (s : State) : (startScan c a b s).reply = s.reply := rfl
@[simp] theorem startScan_draws (c : OpCode) (a b : Nat) (s : State) : (startScan c a b s).draws = s.draws := rfl

/-! ### accumulate -/
@[simp] theorem accumulate_phase (p : Payload) (s : State) : (accumulate p s).phase = s.phase := rfl
@[simp] theorem accumulate_op (p : Payload) (s : State) : (accumulate p s).op = s.op := rfl
@[simp] theorem accumulate_endPos (p : Payload) (s : State) : (accumulate p s).endPos = s.endPos := rfl
@[simp] theorem accumulate_pos (p : Payload) (s : State) : (accumulate p s).pos = s.pos + 1 := rfl
@[simp] theorem accumulate_acc (p : Payload) (s : State) : (accumulate p s).acc = s.acc ||| (p.setWidth 70 <<< s.shift.toNat) := rfl
@[simp] theorem accumulate_shift (p : Payload) (s : State) : (accumulate p s).shift = s.shift + 7 := rfl
@[simp] theorem accumulate_groupCount (p : Payload) (s : State) : (accumulate p s).groupCount = s.groupCount + 1 := rfl
@[simp] theorem accumulate_value (p : Payload) (s : State) : (accumulate p s).value = s.value := rfl
@[simp] theorem accumulate_len (p : Payload) (s : State) : (accumulate p s).len = s.len := rfl
@[simp] theorem accumulate_err (p : Payload) (s : State) : (accumulate p s).err = s.err := rfl
@[simp] theorem accumulate_aw (p : Payload) (s : State) : (accumulate p s).aw = s.aw := rfl
@[simp] theorem accumulate_mem (p : Payload) (s : State) : (accumulate p s).mem = s.mem := rfl
@[simp] theorem accumulate_inputs (p : Payload) (s : State) : (accumulate p s).inputs = s.inputs := rfl
@[simp] theorem accumulate_reply (p : Payload) (s : State) : (accumulate p s).reply = s.reply := rfl
@[simp] theorem accumulate_draws (p : Payload) (s : State) : (accumulate p s).draws = s.draws := rfl

/-! ### failWith -/
@[simp] theorem failWith_phase (x : Cause) (s : State) : (failWith x s).phase = .fail := rfl
@[simp] theorem failWith_op (x : Cause) (s : State) : (failWith x s).op = s.op := rfl
@[simp] theorem failWith_endPos (x : Cause) (s : State) : (failWith x s).endPos = s.endPos := rfl
@[simp] theorem failWith_pos (x : Cause) (s : State) : (failWith x s).pos = s.pos := rfl
@[simp] theorem failWith_acc (x : Cause) (s : State) : (failWith x s).acc = s.acc := rfl
@[simp] theorem failWith_shift (x : Cause) (s : State) : (failWith x s).shift = s.shift := rfl
@[simp] theorem failWith_groupCount (x : Cause) (s : State) : (failWith x s).groupCount = s.groupCount := rfl
@[simp] theorem failWith_value (x : Cause) (s : State) : (failWith x s).value = drawValue s.op s.draws := rfl
@[simp] theorem failWith_len (x : Cause) (s : State) : (failWith x s).len = causeLen x := rfl
@[simp] theorem failWith_err (x : Cause) (s : State) : (failWith x s).err = causeErr x := rfl
@[simp] theorem failWith_aw (x : Cause) (s : State) : (failWith x s).aw = s.aw := rfl
@[simp] theorem failWith_mem (x : Cause) (s : State) : (failWith x s).mem = s.mem := rfl
@[simp] theorem failWith_inputs (x : Cause) (s : State) : (failWith x s).inputs = s.inputs := rfl
@[simp] theorem failWith_reply (x : Cause) (s : State) : (failWith x s).reply = s.reply := rfl
@[simp] theorem failWith_draws (x : Cause) (s : State) : (failWith x s).draws = s.draws + 1 := rfl

/-! ### succeed -/
@[simp] theorem succeed_phase (v : Value) (s : State) : (succeed v s).phase = .done := rfl
@[simp] theorem succeed_op (v : Value) (s : State) : (succeed v s).op = s.op := rfl
@[simp] theorem succeed_endPos (v : Value) (s : State) : (succeed v s).endPos = s.endPos := rfl
@[simp] theorem succeed_pos (v : Value) (s : State) : (succeed v s).pos = s.pos := rfl
@[simp] theorem succeed_acc (v : Value) (s : State) : (succeed v s).acc = s.acc := rfl
@[simp] theorem succeed_shift (v : Value) (s : State) : (succeed v s).shift = s.shift := rfl
@[simp] theorem succeed_groupCount (v : Value) (s : State) : (succeed v s).groupCount = s.groupCount := rfl
@[simp] theorem succeed_value (v : Value) (s : State) : (succeed v s).value = v := rfl
@[simp] theorem succeed_len (v : Value) (s : State) : (succeed v s).len = s.groupCount.setWidth 5 := rfl
@[simp] theorem succeed_err (v : Value) (s : State) : (succeed v s).err = .noError := rfl
@[simp] theorem succeed_aw (v : Value) (s : State) : (succeed v s).aw = s.aw := rfl
@[simp] theorem succeed_mem (v : Value) (s : State) : (succeed v s).mem = s.mem := rfl
@[simp] theorem succeed_inputs (v : Value) (s : State) : (succeed v s).inputs = s.inputs := rfl
@[simp] theorem succeed_reply (v : Value) (s : State) : (succeed v s).reply = s.reply := rfl
@[simp] theorem succeed_draws (v : Value) (s : State) : (succeed v s).draws = s.draws := rfl

/-! ### resetBlock -/
@[simp] theorem resetBlock_phase (s : State) : (resetBlock s).phase = .idle := rfl
@[simp] theorem resetBlock_op (s : State) : (resetBlock s).op = Config.freeOp s.draws := rfl
@[simp] theorem resetBlock_endPos (s : State) : (resetBlock s).endPos = Config.freeEnd s.draws % 2 ^ (s.aw + 1) := rfl
@[simp] theorem resetBlock_pos (s : State) : (resetBlock s).pos = Config.freePos s.draws % 2 ^ (s.aw + 1) := rfl
@[simp] theorem resetBlock_acc (s : State) : (resetBlock s).acc = Config.freeAcc s.draws := rfl
@[simp] theorem resetBlock_shift (s : State) : (resetBlock s).shift = Config.freeShift s.draws := rfl
@[simp] theorem resetBlock_groupCount (s : State) : (resetBlock s).groupCount = Config.freeGroupCount s.draws := rfl
@[simp] theorem resetBlock_value (s : State) : (resetBlock s).value = Config.freeValue s.draws := rfl
@[simp] theorem resetBlock_len (s : State) : (resetBlock s).len = Config.freeLen s.draws := rfl
@[simp] theorem resetBlock_err (s : State) : (resetBlock s).err = Config.freeErr s.draws := rfl
@[simp] theorem resetBlock_aw (s : State) : (resetBlock s).aw = s.aw := rfl
@[simp] theorem resetBlock_mem (s : State) : (resetBlock s).mem = s.mem := rfl
@[simp] theorem resetBlock_inputs (s : State) : (resetBlock s).inputs = s.inputs := rfl
@[simp] theorem resetBlock_reply (s : State) : (resetBlock s).reply = s.reply := rfl
@[simp] theorem resetBlock_draws (s : State) : (resetBlock s).draws = s.draws + 1 := rfl

/-- State.reset is what a reset leaves, with the draws of a counter at 0. -/
theorem reset_eq_resetBlock : State.reset = resetBlock { State.reset with draws := 0 } := rfl

end Sys2Proof.Machine
end

