-- ==== Sys2Proof/Laws/Ops.lean ====
section
/-! SUPPORT. What each shared operation can answer, said once: the launch, the fetch of a group, the decoder's step,
the whole step. Later proofs cite these and do not unfold the operations. -/

namespace Sys2Proof.Machine

/-! ### The operation code's parameters -/

theorem bits_eq (c : OpCode) : bits c = 32 ∧ maxGroups c = 5 ∨ bits c = 64 ∧ maxGroups c = 10 := by
  revert c; decide

theorem maxGroups_le (c : OpCode) : maxGroups c ≤ 10 := by
  rcases bits_eq c with h | h <;> omega

@[simp] theorem valueWidth_drawValue (c : OpCode) (n : Nat) : valueWidth (drawValue c n) = bits c := by
  unfold drawValue bits; split <;> rfl

@[simp] theorem valueWidth_resultValue (c : OpCode) (a : Acc) (sh : Nat) (p : Payload) :
    valueWidth (resultValue c a sh p) = bits c := by
  unfold resultValue bits; split <;> rfl

/-! ### Launch and groups -/

/-- A launch answers a next state exactly where R112 admits it. -/
theorem launch_next {c : OpCode} {a b : Nat} {s t : State} :
    launch c a b s = .next t ↔ s.phase ≠ .scan ∧ a ≤ b ∧ b ≤ 2 ^ s.aw ∧ t = startScan c a b s := by
  unfold launch
  by_cases h : s.phase = .scan
  · simp [h]
  · by_cases h' : a ≤ b ∧ b ≤ 2 ^ s.aw
    · simp [h, h', eq_comm]
    · simp only [h, h', if_false]
      constructor
      · intro e; cases e
      · rintro ⟨-, h1, h2, -⟩; exact absurd ⟨h1, h2⟩ h'

theorem whileScanning_next {s t u : State} : whileScanning s t = .next u ↔ s.phase = .scan ∧ u = t := by
  unfold whileScanning
  by_cases h : s.phase = .scan <;> simp [h, eq_comm]

/-- The two ends of a terminating group (R82, R103). -/
theorem terminate_cases (p : Payload) (s : State) :
    fillOk s.op s.shift.toNat p = true ∧ terminate p s = succeed (resultValue s.op s.acc s.shift.toNat p) s ∨
    fillOk s.op s.shift.toNat p = false ∧ terminate p s = failWith .overflow s := by
  unfold terminate
  cases h : fillOk s.op s.shift.toNat p <;> simp

/-- All four decode instructions are the launch with their code (R57). -/
theorem exec_decodeLaunch (c : OpCode) (a b : Nat) (s : State) : exec (decodeLaunch c a b) s = launch c a b s := by
  have h : c = 0b00#2 ∨ c = 0b01#2 ∨ c = 0b10#2 ∨ c = 0b11#2 := by revert c; decide
  rcases h with rfl | rfl | rfl | rfl <;> rfl

/-- What the group of a byte does (R75, R76). -/
theorem exec_decodeGroup (b : Byte) (s : State) :
    exec (decodeGroup b) s = whileScanning s
      (if contFlag b then accumulate (payloadOf b) s else terminate (payloadOf b) (accumulate (payloadOf b) s)) := by
  unfold decodeGroup
  cases contFlag b <;> rfl

/-- A host write is admitted off the span, or while nothing scans (R46, R118 item 4). -/
theorem hostMemWrite_next {a : Nat} {x : Byte} {s t : State} :
    hostMemWrite a x s = .next t ↔
      a < 2 ^ s.aw ∧ ¬(s.phase = .scan ∧ inSpan s a = true) ∧ t = { s with mem := s.mem.write a x } := by
  unfold hostMemWrite
  by_cases h : 2 ^ s.aw ≤ a
  · simp [h, Nat.not_lt.mpr h]
  · by_cases h' : s.phase = .scan ∧ inSpan s a = true
    · simp [h, h']
    · simp only [h, h', if_false]
      exact ⟨fun e => by cases e; exact ⟨Nat.lt_of_not_le h, id, rfl⟩, fun ⟨_, _, e⟩ => by rw [e]⟩

/-- A terminating group leaves alone what every group does (R76, R104). -/
theorem terminate_frame (p : Payload) (s : State) :
    (terminate p s).op = s.op ∧ (terminate p s).endPos = s.endPos ∧ (terminate p s).pos = s.pos ∧
    (terminate p s).acc = s.acc ∧ (terminate p s).shift = s.shift ∧ (terminate p s).groupCount = s.groupCount ∧
    (terminate p s).aw = s.aw ∧ (terminate p s).mem = s.mem ∧ (terminate p s).inputs = s.inputs ∧
    (terminate p s).reply = s.reply := by
  rcases terminate_cases p s with ⟨-, e⟩ | ⟨-, e⟩ <;> rw [e] <;> exact ⟨rfl, rfl, rfl, rfl, rfl, rfl, rfl, rfl, rfl, rfl⟩

/-! ### The decoder's step -/

/-- The fetch delivers a byte exactly on the third branch of R70. -/
theorem fetchGroup_ok {s : State} {b : Byte} :
    fetchGroup s = .ok b ↔ s.phase = .scan ∧ s.pos ≠ s.endPos ∧ s.groupCount.toNat ≠ maxGroups s.op ∧
      s.pos < 2 ^ s.aw ∧ b = s.mem.read s.pos := by
  unfold fetchGroup memRead
  by_cases h1 : s.phase = .scan <;> by_cases h2 : s.pos = s.endPos <;>
    by_cases h3 : s.groupCount.toNat = maxGroups s.op <;> by_cases h4 : s.pos < 2 ^ s.aw <;>
    simp [h1, h2, h3, h4, eq_comm]

/-- Everything a decoder step can do when it answers a next state (R70): the two failures before a read, and the
two kinds of group. -/
theorem decoderStep_next {s t : State} (h : decoderStep s = .next t) :
    s.phase = .scan ∧
    (s.pos = s.endPos ∧ t = failWith .truncated s ∨
     s.pos ≠ s.endPos ∧ s.groupCount.toNat = maxGroups s.op ∧ t = failWith .tooLong s ∨
     s.pos ≠ s.endPos ∧ s.groupCount.toNat ≠ maxGroups s.op ∧ s.pos < 2 ^ s.aw ∧
       (contFlag (s.mem.read s.pos) = true ∧ t = accumulate (payloadOf (s.mem.read s.pos)) s ∨
        contFlag (s.mem.read s.pos) = false ∧
          t = terminate (payloadOf (s.mem.read s.pos)) (accumulate (payloadOf (s.mem.read s.pos)) s))) := by
  unfold decoderStep at h
  split at h
  · rename_i o ho
    subst h
    unfold fetchGroup memRead at ho
    by_cases h1 : s.phase = .scan <;> by_cases h2 : s.pos = s.endPos <;>
      by_cases h3 : s.groupCount.toNat = maxGroups s.op <;> by_cases h4 : s.pos < 2 ^ s.aw <;>
      simp_all
  · rename_i b hb
    obtain ⟨h1, h2, h3, h4, rfl⟩ := fetchGroup_ok.mp hb
    rw [exec_decodeGroup, whileScanning_next] at h
    refine ⟨h1, .inr (.inr ⟨h2, h3, h4, ?_⟩)⟩
    cases hc : contFlag (s.mem.read s.pos) <;> simp_all

/-- Outside SCAN the decoder has no step (R70). -/
theorem decoderStep_of_not_scan {s : State} (h : s.phase ≠ .scan) : decoderStep s = .fault .noDecoderStep := by
  simp [decoderStep, fetchGroup, h]

/-! ### The whole step, by the first pending action -/

section
variable {s : State} {r : List HostAction} {c : OpCode} {a b : Nat} {x : Byte} {y : HiddenRegister}

theorem step_nil (h : s.inputs = []) : step s = decoderStep s := by
  unfold step; rw [h]

theorem step_dec (h : s.inputs = .dec :: r) : step s = decoderStep { s with inputs := r } := by
  unfold step; rw [h]

theorem step_wait (h : s.inputs = .wait :: r) : step s = if s.phase = .scan then decoderStep s else .next { s with inputs := r } := by
  unfold step; rw [h]

theorem step_launch (h : s.inputs = .launch c a b :: r) : step s = launch c a b { s with inputs := r } := by
  unfold step; rw [h]; exact exec_decodeLaunch c a b _

theorem step_read (h : s.inputs = .read :: r) : step s = hostRead { s with inputs := r } := by
  unfold step; rw [h]

theorem step_phase (h : s.inputs = .phase :: r) : step s = hostPhase { s with inputs := r } := by
  unfold step; rw [h]

theorem step_reset (h : s.inputs = .reset :: r) : step s = hostReset { s with inputs := r } := by
  unfold step; rw [h]

theorem step_memWrite (h : s.inputs = .memWrite a x :: r) : step s = hostMemWrite a x { s with inputs := r } := by
  unfold step; rw [h]

theorem step_peek (h : s.inputs = .peek y :: r) : step s = hostPeek y { s with inputs := r } := by
  unfold step; rw [h]

end

/-! ### The whole step, inverted -/

/-- Everything a step can do when it answers a next state. -/
theorem step_next {s t : State} (h : step s = .next t) :
    (s.inputs = [] ∧ decoderStep s = .next t) ∨
    (∃ r, s.inputs = .dec :: r ∧ decoderStep { s with inputs := r } = .next t) ∨
    (∃ r, s.inputs = .wait :: r ∧ s.phase = .scan ∧ decoderStep s = .next t) ∨
    (∃ r, s.inputs = .wait :: r ∧ s.phase ≠ .scan ∧ t = { s with inputs := r }) ∨
    (∃ r c a b, s.inputs = .launch c a b :: r ∧ s.phase ≠ .scan ∧ a ≤ b ∧ b ≤ 2 ^ s.aw ∧
      t = startScan c a b { s with inputs := r }) ∨
    (∃ r, s.inputs = .read :: r ∧ s.phase = .done ∧
      t = { s with inputs := r, reply := some (.result s.value s.len s.err) }) ∨
    (∃ r, s.inputs = .read :: r ∧ s.phase = .fail ∧
      t = { s with inputs := r, reply := some (.result (drawValue s.op s.draws) s.len s.err), draws := s.draws + 1 }) ∨
    (∃ r, s.inputs = .phase :: r ∧ t = { s with inputs := r, reply := some (.phase s.phase) }) ∨
    (∃ r, s.inputs = .reset :: r ∧ t = resetBlock { s with inputs := r }) ∨
    (∃ r a b, s.inputs = .memWrite a b :: r ∧ a < 2 ^ s.aw ∧ ¬(s.phase = .scan ∧ inSpan s a = true) ∧
      t = { s with inputs := r, mem := s.mem.write a b }) := by
  unfold step at h
  split at h
  · exact .inl ⟨‹_›, h⟩
  · exact .inr (.inl ⟨_, ‹_›, h⟩)
  · split at h
    · exact .inr (.inr (.inl ⟨_, ‹_›, ‹_›, h⟩))
    · cases h; exact .inr (.inr (.inr (.inl ⟨_, ‹_›, ‹_›, rfl⟩)))
  · rw [exec_decodeLaunch, launch_next] at h
    obtain ⟨h1, h2, h3, rfl⟩ := h
    exact .inr (.inr (.inr (.inr (.inl ⟨_, _, _, _, ‹_›, h1, h2, h3, rfl⟩))))
  · unfold hostRead at h
    split at h <;> cases h
    · exact .inr (.inr (.inr (.inr (.inr (.inl ⟨_, ‹_›, ‹_›, rfl⟩)))))
    · exact .inr (.inr (.inr (.inr (.inr (.inr (.inl ⟨_, ‹_›, ‹_›, rfl⟩))))))
  · cases h; exact .inr (.inr (.inr (.inr (.inr (.inr (.inr (.inl ⟨_, ‹_›, rfl⟩)))))))
  · cases h; exact .inr (.inr (.inr (.inr (.inr (.inr (.inr (.inr (.inl ⟨_, ‹_›, rfl⟩))))))))
  · unfold hostMemWrite at h
    split at h
    · cases h
    · split at h
      · cases h
      · cases h
        rename_i h1 h2
        exact .inr (.inr (.inr (.inr (.inr (.inr (.inr (.inr (.inr
          ⟨_, _, _, ‹_›, Nat.lt_of_not_le h1, h2, rfl⟩))))))))
  · cases h

end Sys2Proof.Machine
end

