-- ==== Sys2Proof/Laws/Scan.lean ====
section
/-! SUPPORT. The arithmetic of the scan: a byte as a number, the accumulator as a sum, and why no counter wraps. -/

namespace Sys2Proof.Machine

/-- `CONT` as a comparison (30_encoding R51). -/
theorem contFlag_eq (b : Byte) : contFlag b = decide (128 ≤ b.toNat) := by
  revert b; decide

/-- `PAYLOAD` as a remainder (30_encoding R51). -/
theorem payloadOf_toNat (b : Byte) : (payloadOf b).toNat = payloadNat b := by
  simp [payloadOf, payloadNat, BitVec.extractLsb'_toNat]

/-- The bytes read so far, then one more (30_encoding R54). -/
theorem assemble_append (bs : List Byte) (b : Byte) :
    assemble (bs ++ [b]) = assemble bs + payloadNat b * 2 ^ (7 * bs.length) := by
  induction bs with
  | nil => simp [assemble]
  | cons c cs ih =>
    have h : 2 ^ (7 * (cs.length + 1)) = 128 * 2 ^ (7 * cs.length) := by
      rw [Nat.mul_add, Nat.pow_add]; omega
    rw [List.cons_append, assemble, ih, assemble, List.length_cons, h]
    ring

/-- `n` payloads fill `7n` bits. -/
theorem assemble_lt (bs : List Byte) : assemble bs < 2 ^ (7 * bs.length) := by
  induction bs with
  | nil => simp [assemble]
  | cons c cs ih =>
    have h : 2 ^ (7 * (cs.length + 1)) = 128 * 2 ^ (7 * cs.length) := by
      rw [Nat.mul_add, Nat.pow_add]; omega
    have hc : payloadNat c < 128 := Nat.mod_lt _ (by omega)
    rw [assemble, List.length_cons, h]
    omega

/-- The OR of 40_generic_decode R72 is an addition while the accumulator is below `2^SHIFT`. -/
theorem acc_or_toNat {a : Acc} {p : Payload} {n : Nat} (ha : a.toNat < 2 ^ n) (hn : n ≤ 63) :
    (a ||| (p.setWidth 70 <<< n)).toNat = a.toNat + p.toNat * 2 ^ n := by
  have hp : p.toNat < 2 ^ 7 := p.isLt
  have hle : 2 ^ n ≤ 2 ^ 63 := Nat.pow_le_pow_right (by omega) hn
  have hmul : p.toNat * 2 ^ n < 2 ^ 70 := calc
    p.toNat * 2 ^ n ≤ 127 * 2 ^ n := Nat.mul_le_mul_right _ (by omega)
    _ ≤ 127 * 2 ^ 63 := Nat.mul_le_mul_left _ hle
    _ < 2 ^ 70 := by norm_num
  have h1 : (p.setWidth 70 <<< n).toNat = p.toNat * 2 ^ n := by
    rw [BitVec.toNat_shiftLeft, BitVec.toNat_setWidth, Nat.mod_eq_of_lt (by omega : p.toNat < 2 ^ 70),
      Nat.shiftLeft_eq, Nat.mod_eq_of_lt hmul]
  rw [BitVec.toNat_or, h1, Nat.or_comm, Nat.mul_comm p.toNat, ← Nat.two_pow_add_eq_or_of_lt ha]
  omega

/-- A byte is only read with GROUPCOUNT below MAX_GROUPS, so the counters do not wrap (40_generic_decode R74). -/
theorem WorkingInv.counters {s : State} (h : WorkingInv s) (hc : s.groupCount.toNat ≠ maxGroups s.op) (p : Payload) :
    s.shift.toNat ≤ 63 ∧ (accumulate p s).shift.toNat = s.shift.toNat + 7 ∧
      (accumulate p s).groupCount.toNat = s.groupCount.toNat + 1 := by
  have h1 := h.shift_eq
  have h2 := h.count_le
  have h3 := maxGroups_le s.op
  refine ⟨by omega, ?_, ?_⟩
  · rw [accumulate_shift, BitVec.toNat_add, Nat.mod_eq_of_lt (by simp; omega)]; rfl
  · rw [accumulate_groupCount, BitVec.toNat_add, Nat.mod_eq_of_lt (by simp; omega)]; rfl

/-- The accumulator of a read, as a sum (40_generic_decode R72). -/
theorem WorkingInv.acc {s : State} (h : WorkingInv s) (hc : s.groupCount.toNat ≠ maxGroups s.op) (p : Payload) :
    (accumulate p s).acc.toNat = s.acc.toNat + p.toNat * 2 ^ s.shift.toNat :=
  acc_or_toNat h.acc_below (h.counters hc p).1

/-- Reading a byte keeps the working registers' invariant (10_state R28). -/
theorem WorkingInv.accumulate {s : State} (h : WorkingInv s) (he : s.pos ≠ s.endPos)
    (hc : s.groupCount.toNat ≠ maxGroups s.op) (p : Payload) : WorkingInv (accumulate p s) := by
  obtain ⟨hs, h1, h2⟩ := h.counters hc p
  have hacc := h.acc hc p
  have := h.shift_eq; have := h.count_le; have := h.start_nonneg; have := h.pos_le_end; have := h.end_le
  have hb := h.acc_below
  have hp : p.toNat < 2 ^ 7 := p.isLt
  refine ⟨by omega, ?_, ?_, ?_, ?_, ?_⟩
  · rw [h2]; show _ ≤ maxGroups s.op; omega
  · rw [h2]; show _ ≤ s.pos + 1; omega
  · show s.pos + 1 ≤ s.endPos; omega
  · show s.endPos ≤ 2 ^ s.aw; omega
  · rw [h1, hacc, Nat.pow_add]
    nlinarith [Nat.mul_le_mul_right (2 ^ s.shift.toNat) (by omega : p.toNat ≤ 127)]

/-- The working registers' invariant does not look at the result. -/
theorem WorkingInv.congr {s t : State} (h : WorkingInv s) (hw : SameWorking s t) (ha : t.aw = s.aw) : WorkingInv t := by
  obtain ⟨h1, h2, h3, h4, h5, h6⟩ := hw
  refine ⟨?_, ?_, ?_, ?_, ?_, ?_⟩
  · rw [h5, h6]; exact h.shift_eq
  · rw [h6, h1]; exact h.count_le
  · rw [h6, h3]; exact h.start_nonneg
  · rw [h3, h2]; exact h.pos_le_end
  · rw [h2, ha]; exact h.end_le
  · rw [h4, h5]; exact h.acc_below

end Sys2Proof.Machine
end

