-- ==== Sys2Proof/Laws/Flags.lean ====
section
/-! SUPPORT. What the signals of a terminating group say: the fill check and the delivered value, bit by bit and as a
number. -/

namespace Sys2Proof.Machine

theorem topBitsAre_iff (f : Bool) (u : Nat) (p : Payload) :
    topBitsAre f u p = true ↔ ∀ j, u ≤ j → j ≤ 6 → p.getLsbD j = f := by
  unfold topBitsAre
  rw [List.all_eq_true]
  constructor
  · intro h j h1 h2
    have := h j (by simp; omega)
    simp only [Bool.or_eq_true, decide_eq_true_eq, beq_iff_eq] at this
    rcases this with h | h
    · omega
    · exact h
  · intro h j hj
    have hj : j < 7 := by simpa using hj
    simp only [Bool.or_eq_true, decide_eq_true_eq, beq_iff_eq]
    by_cases hu : j < u
    · exact .inl hu
    · exact .inr (h j (by omega) (by omega))

/-- The fill check in the words of 40_generic_decode R80. -/
theorem fillOk_iff (c : OpCode) (sh : Nat) (p : Payload) :
    fillOk c sh p = true ↔ usedBits c sh = 7 ∨
      ∀ j, usedBits c sh ≤ j → j ≤ 6 → p.getLsbD j = (opSigned c && p.getLsbD (usedBits c sh - 1)) := by
  have h7 : usedBits c sh ≤ 7 := by unfold usedBits; omega
  rw [fillOk, Bool.or_eq_true, topBitsAre_iff]
  have : (overflowBits c sh == 0) = true ↔ usedBits c sh = 7 := by unfold overflowBits; simp; omega
  rw [this]; rfl

/-- Before the last possible group nothing is checked (40_generic_decode R78). -/
theorem fillOk_early {c : OpCode} {g : Nat} (p : Payload) (h : g < maxGroups c) : fillOk c (7 * g) p = true := by
  have : usedBits c (7 * g) = 7 := by
    unfold usedBits; rcases bits_eq c with h | h <;> omega
  exact (fillOk_iff _ _ _).mpr (.inl this)

/-- In the last possible group the check is the closed form's (40_generic_decode R85). -/
theorem fillOk_last : ∀ (c : OpCode) (p : Payload),
    fillOk c (7 * maxGroups c) p = fillMatches (bits c) (opSigned c) p.toNat := by
  decide

theorem ones_toNat {w sh : Nat} (hs : sh < w) : (ones w (w - 1) sh).toNat = 2 ^ w - 2 ^ sh := by
  have hp := Nat.two_pow_pos sh
  have hle : 2 ^ sh ≤ 2 ^ w := Nat.pow_le_pow_right (by omega) hs.le
  unfold ones
  rw [if_neg (by omega), show w - 1 + 1 = w by omega, BitVec.toNat_ofNat, Nat.mod_eq_of_lt (by omega)]

theorem ones_getLsbD {w sh j : Nat} (hs : sh < w) (hj : j < w) :
    (ones w (w - 1) sh).getLsbD j = decide (sh ≤ j) := by
  have e : ones w (w - 1) sh = BitVec.allOnes w <<< sh := by
    apply BitVec.eq_of_toNat_eq
    have hp := Nat.two_pow_pos sh
    have hle : 2 ^ sh ≤ 2 ^ w := Nat.pow_le_pow_right (by omega) hs.le
    rw [ones_toNat hs, BitVec.toNat_shiftLeft, BitVec.toNat_allOnes, Nat.shiftLeft_eq]
    have e : (2 ^ w - 1) * 2 ^ sh = (2 ^ w - 2 ^ sh) + 2 ^ w * (2 ^ sh - 1) := by
      have h1 : (2 ^ w - 1) * 2 ^ sh = 2 ^ w * 2 ^ sh - 2 ^ sh := by rw [Nat.sub_mul, one_mul]
      have h2 : 2 ^ w * (2 ^ sh - 1) = 2 ^ w * 2 ^ sh - 2 ^ w := by rw [Nat.mul_sub, mul_one]
      have h3 : 2 ^ w ≤ 2 ^ w * 2 ^ sh := Nat.le_mul_of_pos_right _ hp
      omega
    rw [e, Nat.add_mul_mod_self_left, Nat.mod_eq_of_lt (by omega)]
  rw [e, BitVec.getLsbD_shiftLeft]
  by_cases h : sh ≤ j
  · have h1 : ¬ j < sh := by omega
    have h2 : j - sh < w := by omega
    simp [hj, h, h1, h2]
  · have h1 : j < sh := by omega
    simp [h, h1]

/-- The extension mask, bit by bit (40_generic_decode R81). -/
theorem extMask_getLsbD {c : OpCode} {w sh j : Nat} (p : Payload) (hw : bits c = w) (hj : j < w) :
    (extMask w c sh p).getLsbD j =
      (opSigned c && decide (sh < bits c) && p.getLsbD 6 && decide (sh ≤ j)) := by
  unfold extMask needsExt
  by_cases h : sh < bits c
  · cases h1 : opSigned c <;> cases h2 : p.getLsbD 6 <;> simp [h, ones_getLsbD (hw ▸ h) hj]
  · simp [h]

/-- The delivered value, bit by bit (40_generic_decode R82). -/
theorem resultValue_testBit (c : OpCode) (a : Acc) (sh : Nat) (p : Payload) {j : Nat} (hj : j < bits c) :
    (valueUnsigned (resultValue c a sh p)).testBit j =
      (a.getLsbD j || (opSigned c && decide (sh < bits c) && p.getLsbD 6 && decide (sh ≤ j))) := by
  cases hw : opWide c
  · have hb : bits c = 32 := by simp [bits, hw]
    have hj' : j < 32 := hb ▸ hj
    have e : resultValue c a sh p = .w32 (a.setWidth 32 ||| extMask 32 c sh p) := by simp [resultValue, hw]
    rw [e]
    show (BitVec.toNat _).testBit j = _
    rw [BitVec.testBit_toNat, BitVec.getLsbD_or, extMask_getLsbD p hb hj']; simp [hj']
  · have hb : bits c = 64 := by simp [bits, hw]
    have hj' : j < 64 := hb ▸ hj
    have e : resultValue c a sh p = .w64 (a.setWidth 64 ||| extMask 64 c sh p) := by simp [resultValue, hw]
    rw [e]
    show (BitVec.toNat _).testBit j = _
    rw [BitVec.testBit_toNat, BitVec.getLsbD_or, extMask_getLsbD p hb hj']; simp [hj']

/-- Once an operation has ended, more decoder steps change nothing. -/
theorem scanToEnd_stable {n m : Nat} {s t : State} (h : scanToEnd n s = .next t) (hp : t.phase ≠ .scan)
    (hm : n ≤ m) : scanToEnd m s = .next t := by
  induction n generalizing m s with
  | zero => simp only [scanToEnd] at h; cases h; cases m <;> simp [scanToEnd, hp]
  | succ n ih =>
    obtain ⟨m, rfl⟩ : ∃ m', m = m' + 1 := ⟨m - 1, by omega⟩
    simp only [scanToEnd] at h ⊢
    split at h
    · rename_i hs
      rw [if_pos hs]
      split at h
      · exact ih h (by omega)
      · exact h
    · rename_i hs
      rw [if_neg hs]; exact h

end Sys2Proof.Machine
end

