-- ==== Sys2Proof/Laws/PerInstr.lean ====
section
/-! SUPPORT. A statement about every instruction as syntax: its encoding matches its own row of the opcode table. -/

namespace Sys2Proof.Laws.RowMatch

/-- The encoder puts an instruction into its row's format, with the row's fixed bits (30_encoding R66). -/
def Statement (i : Instr) : Prop :=
  ∀ aw, (encode aw i).1 = (rowOf i).format ∧ (encode aw i).2 &&& (rowOf i).mask = (rowOf i).pattern

/-- The two low bits of a launch's wires are its code. -/
theorem launchWord_code (aw : Nat) (c : OpCode) (a b : Nat) : launchWord aw c a b &&& 3 = c.toNat := by
  have hc : c.toNat < 4 := c.isLt
  rw [show (3 : Nat) = 2 ^ 2 - 1 from rfl, Nat.and_two_pow_sub_one_eq_mod]
  unfold launchWord
  omega

theorem decodeU32 (start stop : Nat) : Statement (.decodeU32 start stop) :=
  fun aw => ⟨rfl, launchWord_code aw 0b00#2 start stop⟩

theorem decodeI32 (start stop : Nat) : Statement (.decodeI32 start stop) :=
  fun aw => ⟨rfl, launchWord_code aw 0b01#2 start stop⟩

theorem decodeU64 (start stop : Nat) : Statement (.decodeU64 start stop) :=
  fun aw => ⟨rfl, launchWord_code aw 0b10#2 start stop⟩

theorem decodeI64 (start stop : Nat) : Statement (.decodeI64 start stop) :=
  fun aw => ⟨rfl, launchWord_code aw 0b11#2 start stop⟩

theorem groupCont (payload : Payload) : Statement (.groupCont payload) :=
  fun _ => ⟨rfl, (by decide : ∀ p : Payload, (1#1 ++ p).toNat &&& 0x80 = 0x80) payload⟩

theorem groupTerm (payload : Payload) : Statement (.groupTerm payload) :=
  fun _ => ⟨rfl, (by decide : ∀ p : Payload, (0#1 ++ p).toNat &&& 0x80 = 0x00) payload⟩

end Sys2Proof.Laws.RowMatch
end

