-- ==== Sys2Proof/Tests/Slice0.lean ====
section
/-! SUPPORT. Tests with expected results from the spec (the place is named at each), and for each obligation with
hypotheses a state that meets them. -/

namespace Sys2Proof.Tests

open Sys2Proof Sys2Proof.Machine

/-! ### States -/

/-- An idle block; memory of program P1 (95_test_vectors 3.1) moved to position 0x10; AW = 8. -/
def idle : State where
  phase := .idle
  op := 0
  endPos := 0
  pos := 0
  acc := 0
  shift := 0
  groupCount := 0
  value := .w32 0
  len := 0
  err := .noError
  aw := 8
  mem := [(0x10, 0xe5), (0x11, 0x8e), (0x12, 0x26)]
  inputs := []
  reply := none
  draws := 0

/-- The single-step states of 95_test_vectors 2.1 and 2.2: END = 0x20. -/
def scanAt (c : OpCode) (pos : Nat) (acc : Acc) (shift : BitVec 7) (count : BitVec 4) : State :=
  { idle with phase := .scan, op := c, endPos := 0x20, pos := pos, acc := acc, shift := shift, groupCount := count }

/-- decode_u32 after the first byte of program P1. -/
def scanning : State := scanAt 0b00#2 0x11 0x65 7 1

/-- decode_u32 after the third byte of program P1. -/
def finished : State :=
  { scanAt 0b00#2 0x13 0x98765 21 3 with phase := .done, value := .w32 0x98765, len := 3 }

/-- decode_u32 over one continuation byte, at the end of its span and after its failure. -/
def atEnd : State := { scanning with endPos := 0x11 }

@[inherit_doc atEnd]
def failed : State := { atEnd with phase := .fail, err := .truncated, len := 0b11111 }

/-- Five bytes at positions 0 to 4, the last as given (95_test_vectors 2.3). -/
def five (last : Byte) : State := { idle with mem := [(0, 0x80), (1, 0x80), (2, 0x80), (3, 0x80), (4, last)] }

/-- decode_u32 after five continuation groups with a sixth byte present. -/
def full : State :=
  { five 0x80 with phase := .scan, endPos := 6, pos := 5, shift := 35, groupCount := 5 }

/-- The state a step answers, if it answers one. -/
def next? : Host.Outcome State Fault Refusal → Option State
  | .next s => some s
  | _ => none

theorem inv_scanning : MachineInv scanning where
  aw_pos := by decide
  mem_wf := by decide
  mem_inside := by decide
  pos_fits := by decide
  end_fits := by decide
  working _ := ⟨by decide, by decide, by decide, by decide, by decide, by decide⟩
  scanning _ := ⟨by decide, by unfold allContinue; decide⟩
  result h := by rcases h with h | h <;> cases h

theorem inv_atEnd : MachineInv atEnd where
  aw_pos := by decide
  mem_wf := by decide
  mem_inside := by decide
  pos_fits := by decide
  end_fits := by decide
  working _ := ⟨by decide, by decide, by decide, by decide, by decide, by decide⟩
  scanning _ := ⟨by decide, by unfold allContinue; decide⟩
  result h := by rcases h with h | h <;> cases h

theorem inv_full : MachineInv full where
  aw_pos := by decide
  mem_wf := by decide
  mem_inside := by decide
  pos_fits := by decide
  end_fits := by decide
  working _ := ⟨by decide, by decide, by decide, by decide, by decide, by decide⟩
  scanning _ := ⟨by decide, by unfold allContinue; decide⟩
  result h := by rcases h with h | h <;> cases h

theorem inv_finished : MachineInv finished where
  aw_pos := by decide
  mem_wf := by decide
  mem_inside := by decide
  pos_fits := by decide
  end_fits := by decide
  working _ := ⟨by decide, by decide, by decide, by decide, by decide, by decide⟩
  scanning h := by cases h
  result _ := ⟨by decide, by decide, by decide, by decide⟩

theorem inv_failed : MachineInv failed where
  aw_pos := by decide
  mem_wf := by decide
  mem_inside := by decide
  pos_fits := by decide
  end_fits := by decide
  working _ := ⟨by decide, by decide, by decide, by decide, by decide, by decide⟩
  scanning h := by cases h
  result _ := ⟨by decide, by decide, by decide, by decide⟩

theorem launchable_idle : Launchable idle 0x10 0x20 := ⟨by decide, by decide, by decide⟩

/-! ### WellFormed refuses what the wires cannot carry -/

theorem test_illFormed_decodeU32 :
    wellFormed 8 (.decodeU32 512 0) = false ∧ wellFormed 8 (.decodeU32 0 512) = false := by decide
theorem test_illFormed_decodeI32 :
    wellFormed 8 (.decodeI32 512 0) = false ∧ wellFormed 8 (.decodeI32 0 512) = false := by decide
theorem test_illFormed_decodeU64 :
    wellFormed 8 (.decodeU64 512 0) = false ∧ wellFormed 8 (.decodeU64 0 512) = false := by decide
theorem test_illFormed_decodeI64 :
    wellFormed 8 (.decodeI64 512 0) = false ∧ wellFormed 8 (.decodeI64 0 512) = false := by decide

/-! ### Decoding words written out from 30_encoding R51 and R57 -/

/-- `1ppppppp` with payload 0x0e (40_generic_decode R75, byte 0x8e). -/
theorem test_decode_groupCont : decodeWord 8 .group 0b1_0001110 = .ok (.groupCont 0x0e) := by decide
/-- `0ppppppp` with payload 0x70 (40_generic_decode R76, byte 0x70). -/
theorem test_decode_groupTerm : decodeWord 8 .group 0b0_1110000 = .ok (.groupTerm 0x70) := by decide
/-- The two ends of each kind (R51: 0x80 to 0xff, 0x00 to 0x7f). -/
theorem test_decode_group_ends :
    decodeGroup 0x80 = .groupCont 0 ∧ decodeGroup 0xff = .groupCont 0x7f ∧
    decodeGroup 0x00 = .groupTerm 0 ∧ decodeGroup 0x7f = .groupTerm 0x7f := by decide
/-- Code 00; span 7 to 7 (95_test_vectors 2.8). -/
theorem test_decode_decodeU32 : decodeWord 8 .opsel 0b000000111_000000111_00 = .ok (.decodeU32 7 7) := by decide
/-- Code 01; span 4 to 9 (95_test_vectors 2.8). -/
theorem test_decode_decodeI32 : decodeWord 8 .opsel 0b000001001_000000100_01 = .ok (.decodeI32 4 9) := by decide
/-- Code 10; span 250 to 256 (95_test_vectors 2.8). -/
theorem test_decode_decodeU64 : decodeWord 8 .opsel 0b100000000_011111010_10 = .ok (.decodeU64 250 256) := by decide
/-- Code 11; span 0x20 to 0x27 (95_test_vectors 3.2). -/
theorem test_decode_decodeI64 : decodeWord 8 .opsel 0b000100111_000100000_11 = .ok (.decodeI64 0x20 0x27) := by decide
/-- A ninth bit is no group, a twenty-first no launch at AW = 8. -/
theorem test_decode_tooWide :
    decodeWord 8 .group 0x100 = .error .groupTooWide ∧
    decodeWord 8 .opsel (2 ^ 20) = .error .launchTooWide := by decide

/-! ### One step of each instruction (95_test_vectors 2.1, 2.2, 2.8) -/

/-- 2.1, third row. -/
theorem test_groupCont_places_payload :
    (next? (step scanning)).map (fun t => (t.phase, t.pos, t.acc, t.shift, t.groupCount)) =
      some (.scan, 0x12, 0x765, 14, 2) := by decide
/-- 2.1, sixth row: the highest bits ACC ever holds. -/
theorem test_groupCont_top :
    (next? (exec (decodeGroup 0xff) (scanAt 0b11#2 0x19 0 63 9))).map (fun t => (t.acc, t.shift, t.groupCount)) =
      some (0x3f8000000000000000, 70, 10) := by decide
/-- 2.2: a short signed encoding at S = 28. -/
theorem test_groupTerm_extends :
    (next? (exec (decodeGroup 0x7f) (scanAt 0b01#2 0x10 0 21 3))).map (fun t => (t.phase, t.value, t.len, t.err)) =
      some (.done, .w32 0xffe00000, 4, .noError) := by decide
/-- 2.2: the last group of decode_i64 with the wrong fill. -/
theorem test_groupTerm_overflow :
    (next? (exec (decodeGroup 0x01) (scanAt 0b11#2 0x19 0 63 9))).map (fun t => (t.phase, t.len, t.err)) =
      some (.fail, -3, .overflow) := by decide
/-- 2.2: the last group of decode_i32 with the sign fill. -/
theorem test_groupTerm_last :
    (next? (exec (decodeGroup 0x78) (scanAt 0b01#2 0x10 0 28 4))).map (fun t => (t.phase, t.value, t.len)) =
      some (.done, .w32 0x80000000, 5) := by decide
/-- 2.2: nine groups of decode_i64 extend by one bit. -/
theorem test_groupTerm_one_bit :
    (next? (exec (decodeGroup 0x40) (scanAt 0b11#2 0x18 0 56 8))).map (fun t => (t.phase, t.value, t.len)) =
      some (.done, .w64 0xc000000000000000, 9) := by decide
/-- 2.8: an admitted launch. -/
theorem test_decodeI32_launch :
    (next? (exec (.decodeI32 4 9) idle)).map (fun t => (t.phase, t.op, t.pos, t.endPos)) =
      some (.scan, 0b01, 4, 9) := by decide
/-- 2.8: `end = 2^AW` is legal. -/
theorem test_decodeU32_launch :
    (next? (exec (.decodeU32 250 256) idle)).map (fun t => (t.op, t.pos, t.endPos)) = some (0b00, 250, 256) := by
  decide
theorem test_decodeU64_launch :
    (next? (exec (.decodeU64 0x40 0x45) idle)).map (fun t => (t.op, t.pos, t.endPos)) = some (0b10, 0x40, 0x45) := by
  decide
theorem test_decodeI64_launch :
    (next? (exec (.decodeI64 0x20 0x27) idle)).map (fun t => (t.op, t.pos, t.endPos)) = some (0b11, 0x20, 0x27) := by
  decide
/-- 2.8: `end > 2^AW`, `start > end`, a launch while busy. -/
theorem test_launch_refused :
    exec (.decodeU32 250 257) idle = .refused .illegalSpan ∧ exec (.decodeU32 9 4) idle = .refused .illegalSpan ∧
    exec (.decodeU32 4 9) scanning = .refused .launchWhileScanning := ⟨rfl, rfl, rfl⟩
/-- 2.7: the end test precedes the count test, and a byte past the fifth group is TOO_LONG. -/
theorem test_failures_before_read :
    (next? (step { full with endPos := 5 })).map (fun t => (t.phase, t.len, t.err)) =
      some (.fail, -1, .truncated) ∧
    (next? (step full)).map (fun t => (t.phase, t.len, t.err)) = some (.fail, -2, .tooLong) := by decide
/-- Memory read after write at the top of an 8-bit space, and the canonical form on writing 0x00. -/
theorem test_memory :
    (idle.mem.write 255 0x7f).read 255 = 0x7f ∧ idle.mem.write 0x11 0 = [(0x10, 0xe5), (0x12, 0x26)] := by decide
/-- The host's probe: every row of the opcode table runs as the first instruction after reset. -/
theorem test_probe :
    ((next? (step (State.reset.withFetchWord 2 0))).map (·.phase) = some .scan) ∧
    ((next? (step (State.reset.withFetchWord 8 1))).map (·.op) = some 0b01) ∧
    ((next? (step (State.reset.withFetchWord 8 0x80))).map (·.groupCount) = some 1) ∧
    ((next? (step (State.reset.withFetchWord 8 0x00))).map (·.phase) = some .done) := by decide

/-! ### The obligations' hypotheses are met -/

theorem witness_DecodeOfEncode : wellFormed 8 (.decodeI64 511 511) = true := by decide
theorem witness_EncodeOfDecode : decodeWord 8 .opsel (2 ^ 20 - 1) = .ok (.decodeI64 511 511) := by decide
theorem witness_TableRowsPartition :
    (rowOf (.groupTerm 0)).format = .group ∧ (rowOf (.decodeU32 0 0)).format = .opsel := by decide
theorem witness_OperationsLaunch : Launchable idle 250 256 := ⟨by decide, by decide, by decide⟩
theorem witness_LaunchAdmission_admitted :
    Launchable { idle with inputs := [.launch 0b01#2 0 256] } 0 256 := ⟨by decide, by decide, by decide⟩
theorem witness_LaunchAdmission_busy : { scanning with inputs := [.launch 0b01#2 4 9] }.phase = .scan := rfl
theorem witness_LaunchAdmission_illegal :
    { idle with inputs := [.launch 0b00#2 256 257] }.phase ≠ .scan ∧ ¬(256 ≤ 257 ∧ 257 ≤ 2 ^ idle.aw) := by decide
theorem witness_OperationsFrame : ∃ t, exec (.decodeU64 0x10 0x20) idle = .next t := ⟨_, rfl⟩
theorem witness_GroupContEffect : scanning.phase = .scan := rfl
/-- The pass clause (`used = 7`) and the miss clause of GroupTermEffect. -/
theorem witness_GroupTermEffect :
    (scanning.phase = .scan ∧ fillOk scanning.op (scanning.shift + 7).toNat 0x26 = true) ∧
    ((scanAt 0b00#2 0x10 0 28 4).phase = .scan ∧ fillOk 0b00#2 35 0x10 = false) := by decide
theorem witness_GroupsFrame :
    (∃ t, exec (.groupCont 0x0e) scanning = .next t) ∧ ∃ t, exec (.groupTerm 0x26) scanning = .next t :=
  ⟨⟨_, rfl⟩, ⟨_, rfl⟩⟩
theorem witness_NoGroupOutsideScan : idle.phase ≠ .scan ∧ idle.inputs = [] := by decide
theorem witness_AccumulationExact :
    MachineInv scanning ∧ scanning.phase = .scan ∧ scanning.groupCount.toNat ≠ maxGroups scanning.op ∧
      ∃ t, exec (decodeGroup 0x8e) scanning = .next t :=
  ⟨inv_scanning, rfl, by decide, ⟨_, rfl⟩⟩
theorem witness_CountersExact_read :
    MachineInv scanning ∧ scanning.phase = .scan ∧ scanning.inputs = [] ∧ (∃ t, step scanning = .next t) ∧
      scanning.pos ≠ scanning.endPos ∧ scanning.groupCount.toNat ≠ maxGroups scanning.op :=
  ⟨inv_scanning, rfl, rfl, ⟨_, rfl⟩, by decide, by decide⟩
theorem witness_CountersExact_end :
    MachineInv atEnd ∧ atEnd.phase = .scan ∧ atEnd.inputs = [] ∧ (∃ t, step atEnd = .next t) ∧
      atEnd.pos = atEnd.endPos :=
  ⟨inv_atEnd, rfl, rfl, ⟨_, rfl⟩, rfl⟩
theorem witness_CountersExact_full :
    MachineInv full ∧ full.phase = .scan ∧ full.inputs = [] ∧ (∃ t, step full = .next t) ∧
      full.groupCount.toNat = maxGroups full.op :=
  ⟨inv_full, rfl, rfl, ⟨_, rfl⟩, rfl⟩
theorem witness_OverflowRegionSize :
    (1 ≤ 5 ∧ 5 ≤ maxGroups 0b01#2 ∧ 5 = maxGroups 0b01#2 ∧ bits 0b01#2 = 32) ∧
    (1 ≤ 10 ∧ 10 = maxGroups 0b11#2 ∧ bits 0b11#2 = 64) ∧ (1 ≤ 9 ∧ 9 < maxGroups 0b10#2) := by decide
theorem witness_LastGroupPassList (c : OpCode) :
    let s := scanAt c 0x10 0 (BitVec.ofNat 7 (7 * (maxGroups c - 1))) (BitVec.ofNat 4 (maxGroups c - 1))
    s.phase = .scan ∧ s.shift.toNat = 7 * (maxGroups c - 1) ∧ 1 ≤ maxGroups c ∧ maxGroups c ≤ maxGroups s.op := by
  revert c; decide
theorem witness_LastGroupPassList_early :
    scanning.phase = .scan ∧ scanning.shift.toNat = 7 * (2 - 1) ∧ 1 ≤ 2 ∧ 2 < maxGroups scanning.op := by decide
theorem witness_SignExtension :
    MachineInv scanning ∧ scanning.phase = .scan ∧ scanning.groupCount.toNat ≠ maxGroups scanning.op ∧
      ∃ t, exec (.groupTerm 0x26) scanning = .next t ∧ t.phase = .done :=
  ⟨inv_scanning, rfl, by decide, _, rfl, by decide⟩
theorem witness_StepRunsDecoded :
    scanning.phase = .scan ∧ scanning.pos ≠ scanning.endPos ∧ scanning.groupCount.toNat ≠ maxGroups scanning.op ∧
      scanning.pos < 2 ^ scanning.aw ∧ scanning.inputs = [] := by decide
theorem witness_StepRunsDecoded_launch :
    { idle with inputs := [.launch 0b10#2 0 1] }.inputs = .launch 0b10#2 0 1 :: [] := rfl
theorem witness_FailureEntry_truncated : atEnd.phase = .scan ∧ DecoderTurn atEnd [] ∧ atEnd.pos = atEnd.endPos :=
  ⟨rfl, .inl ⟨rfl, rfl⟩, rfl⟩
theorem witness_FailureEntry_turns :
    DecoderTurn { atEnd with inputs := [.dec, .read] } [.read] ∧
      DecoderTurn { atEnd with inputs := [.wait, .read] } [.wait, .read] :=
  ⟨.inr (.inl rfl), .inr (.inr ⟨_, rfl, rfl⟩)⟩
theorem witness_FailureEntry_tooLong :
    full.phase = .scan ∧ DecoderTurn full [] ∧ full.pos ≠ full.endPos ∧
      full.groupCount.toNat = maxGroups full.op :=
  ⟨rfl, .inl ⟨rfl, rfl⟩, by decide, by decide⟩
theorem witness_FailureEntry_overflow :
    let s := scanAt 0b00#2 0x10 0 28 4
    s.phase = .scan ∧ fillOk s.op (s.shift + 7).toNat 0x10 = false := by decide
theorem witness_FailureEntry_stays : (∃ t, step atEnd = .next t ∧ t.phase = .fail) ∧ atEnd.inputs = [] :=
  ⟨⟨_, rfl, by decide⟩, rfl⟩
theorem witness_PhaseTransitions_reset : ∃ t, step { scanning with inputs := [.reset] } = .next t := ⟨_, rfl⟩
theorem witness_PhaseTransitions_launch : ∃ t, step { failed with inputs := [.launch 0 0 0] } = .next t := ⟨_, rfl⟩
theorem witness_PhaseTransitions_end : ∃ t, step atEnd = .next t ∧ t.phase ≠ atEnd.phase := ⟨_, rfl, by decide⟩
theorem witness_NeverWritesMemory :
    (∃ t, step scanning = .next t) ∧ ∀ a b, scanning.inputs.head? ≠ some (.memWrite a b) :=
  ⟨⟨_, rfl⟩, fun _ _ h => by cases h⟩
theorem witness_ReadsOnlyAtPos :
    MachineInv scanning ∧ scanning.phase = .scan ∧ scanning.inputs = [] ∧ (∃ t, step scanning = .next t) ∧
      Memory.read [(0x11, 0x8e)] scanning.pos = scanning.mem.read scanning.pos ∧ scanning.pos ≠ scanning.endPos :=
  ⟨inv_scanning, rfl, rfl, ⟨_, rfl⟩, by decide, by decide⟩
theorem witness_ScanEnds : MachineInv full ∧ full.phase = .scan ∧ full.inputs = [] := ⟨inv_full, rfl, rfl⟩
theorem witness_InvKept : MachineInv scanning ∧ ∃ t, step scanning = .next t := ⟨inv_scanning, ⟨_, rfl⟩⟩
theorem witness_LengthContract :
    (MachineInv finished ∧ finished.phase = .done) ∧ MachineInv failed ∧ failed.phase = .fail :=
  ⟨⟨inv_finished, rfl⟩, inv_failed, rfl⟩
theorem witness_OperationMeetsClosedForm :
    Launchable idle 0x10 0x20 ∧ decodeSpan 32 false (spanBytes idle.mem 0x10 0x20) = .ok 3 624485 :=
  ⟨launchable_idle, by decide⟩
theorem witness_ValueTheorem :
    Launchable idle 0x10 0x20 ∧
      terminatorIndex ((spanBytes idle.mem 0x10 0x20).take (maxGroups 0b00#2)) = some 3 ∧ 3 < maxGroups 0b00#2 :=
  ⟨launchable_idle, by decide, by decide⟩
theorem witness_EncodedValuesDecode :
    Launchable idle 0x10 0x20 ∧ inRange (bits 0b00#2) (opSigned 0b00#2) 624485 = true ∧ 1 ≤ 3 ∧
      3 ≤ maxGroups 0b00#2 ∧ fitsGroups (opSigned 0b00#2) 624485 3 = true ∧
      (spanBytes idle.mem 0x10 0x20).take 3 = encodeIn 3 624485 :=
  ⟨launchable_idle, by decide, by decide, by decide, by decide, by decide⟩
theorem witness_EveryValueHasAnEncoding :
    inRange (bits 0b01#2) (opSigned 0b01#2) (-2147483648) = true ∧
      inRange (bits 0b10#2) (opSigned 0b10#2) 18446744073709551615 = true := by decide
theorem witness_GroupLimitBoundary_valid :
    Launchable (five 0x0f) 0 5 ∧ allContinue ((spanBytes (five 0x0f).mem 0 5).take (maxGroups 0b00#2 - 1)) ∧
      maxGroups 0b00#2 ≤ 5 - 0 ∧ (((five 0x0f).mem.read 4).toNat < 128) ∧
      fillMatches (bits 0b00#2) (opSigned 0b00#2) (payloadNat ((five 0x0f).mem.read 4)) = true :=
  ⟨⟨by decide, by decide, by decide⟩, by unfold allContinue; decide, by decide, by decide, by decide⟩
theorem witness_GroupLimitBoundary_tooLong :
    Launchable (five 0x80) 0 6 ∧ allContinue ((spanBytes (five 0x80).mem 0 6).take (maxGroups 0b00#2 - 1)) ∧
      128 ≤ ((five 0x80).mem.read 4).toNat ∧ maxGroups 0b00#2 < 6 - 0 :=
  ⟨⟨by decide, by decide, by decide⟩, by unfold allContinue; decide, by decide, by decide⟩
theorem witness_GroupLimitBoundary_truncated :
    Launchable (five 0x80) 0 5 ∧ allContinue ((spanBytes (five 0x80).mem 0 5).take (maxGroups 0b00#2 - 1)) ∧
      128 ≤ ((five 0x80).mem.read 4).toNat ∧ maxGroups 0b00#2 = 5 - 0 :=
  ⟨⟨by decide, by decide, by decide⟩, by unfold allContinue; decide, by decide, by decide⟩
/-- Two different memories, positions and earlier phases with the same first three bytes. -/
theorem witness_ResultIsPure :
    let s₂ := { failed with mem := [(0, 0xe5), (1, 0x8e), (2, 0x26)] }
    Launchable idle 0x10 0x13 ∧ Launchable s₂ 0 3 ∧
      (spanBytes idle.mem 0x10 0x13).take (maxGroups 0b00#2) = (spanBytes s₂.mem 0 3).take (maxGroups 0b00#2) ∧
      (maxGroups 0b00#2 < 0x13 - 0x10 ↔ maxGroups 0b00#2 < 3 - 0) :=
  ⟨⟨by decide, by decide, by decide⟩, ⟨by decide, by decide, by decide⟩, by decide, by decide⟩
/-- 95_test_vectors 2.9, `[80×4 0f]`: fails as decode_i32, succeeds as the other three. -/
theorem witness_OperationsRelated : Launchable (five 0x0f) 0 5 := ⟨by decide, by decide, by decide⟩
theorem witness_ReadResult :
    finished.phase = .done ∧ failed.phase = .fail ∧ idle.phase = .idle ∧ scanning.phase = .scan ∧
      { finished with inputs := [.read] }.inputs = [.read] := by decide
theorem witness_ReadPhase : MachineInv failed ∧ (failed.phase = .done ∨ failed.phase = .fail) :=
  ⟨inv_failed, .inr rfl⟩
theorem witness_ResetAction : { scanning with inputs := [.reset] }.inputs = [.reset] := rfl
/-- The first and the last position of the span being scanned (`R118` item 4); the others are immediate. -/
theorem witness_Refusals :
    MachineInv scanning ∧ scanning.phase = .scan ∧ scanning.pos - scanning.groupCount.toNat ≤ 0x10 ∧
      0x10 < scanning.endPos ∧ scanning.pos - scanning.groupCount.toNat ≤ 0x1f ∧ 0x1f < scanning.endPos :=
  ⟨inv_scanning, rfl, by decide, by decide, by decide, by decide⟩
theorem witness_Refusals_launch :
    scanning.phase = .scan ∧ idle.phase ≠ .scan ∧ (1 > 0 ∨ 0 > 2 ^ idle.aw) ∧ (0 > 257 ∨ 257 > 2 ^ idle.aw) := by decide
theorem witness_ResultStays :
    let s := { finished with inputs := [.memWrite 0 1] }
    (∃ t, step s = .next t) ∧ s.phase = .done ∧ s.inputs.head? ≠ some .reset ∧
      ∀ c a b, s.inputs.head? ≠ some (.launch c a b) :=
  ⟨⟨_, rfl⟩, rfl, by decide, fun _ _ _ h => by cases h⟩
/-- Outside a scan, and during one just below and just above the span. -/
theorem witness_HostWrites :
    idle.mem.wf = true ∧ 255 < 2 ^ idle.aw ∧ idle.phase ≠ .scan ∧
      scanning.mem.wf = true ∧ 0x0f < scanning.pos - scanning.groupCount.toNat ∧ scanning.endPos ≤ 0x20 := by decide
theorem witness_WaitAction :
    scanning.phase = .scan ∧ finished.phase ≠ .scan ∧ { scanning with inputs := [.wait] }.inputs = [.wait] := by decide

end Sys2Proof.Tests
end

section
/-! The scan as a total function of the scanning state, one decoder step at a time, and the whole operation as its
iteration (R70, R112). -/

namespace Sys2Proof.Machine

/-- A scan in progress with no host action pending: the decoder moves until the operation has ended. -/
structure Scanning (s : State) : Prop where
  phase_eq : s.phase = .scan
  inputs_eq : s.inputs = []
  working : WorkingInv s

/-- The state after one decoder step of a scan, in the order of R70's tests. -/
def scanStep (s : State) : State :=
  if s.pos = s.endPos then failWith .truncated s
  else if s.groupCount.toNat = maxGroups s.op then failWith .tooLong s
  else
    let p := payloadOf (s.mem.read s.pos)
    if contFlag (s.mem.read s.pos) then accumulate p s else terminate p (accumulate p s)

/-- How many groups the scan may still read. -/
def groupsLeft (s : State) : Nat := maxGroups s.op - s.groupCount.toNat

section
variable {s : State}

theorem scanStep_at_end (he : s.pos = s.endPos) : scanStep s = failWith .truncated s := by
  simp [scanStep, he]

theorem scanStep_at_limit (he : s.pos ≠ s.endPos) (hc : s.groupCount.toNat = maxGroups s.op) :
    scanStep s = failWith .tooLong s := by
  simp [scanStep, he, hc]

theorem scanStep_cont (he : s.pos ≠ s.endPos) (hc : s.groupCount.toNat ≠ maxGroups s.op)
    (hb : contFlag (s.mem.read s.pos) = true) : scanStep s = accumulate (payloadOf (s.mem.read s.pos)) s := by
  simp [scanStep, he, hc, hb]

theorem scanStep_term (he : s.pos ≠ s.endPos) (hc : s.groupCount.toNat ≠ maxGroups s.op)
    (hb : contFlag (s.mem.read s.pos) = false) :
    scanStep s =
      terminate (payloadOf (s.mem.read s.pos)) (accumulate (payloadOf (s.mem.read s.pos)) s) := by
  simp [scanStep, he, hc, hb]

/-- While scanning within the span's bounds the machine always has its next state (R70, R40). -/
theorem Scanning.step_eq (h : Scanning s) : step s = .next (scanStep s) := by
  have hp := h.phase_eq
  rw [step_nil h.inputs_eq]
  by_cases he : s.pos = s.endPos
  · simp [decoderStep, fetchGroup, hp, scanStep_at_end he, he]
  · by_cases hc : s.groupCount.toNat = maxGroups s.op
    · simp [decoderStep, fetchGroup, hp, scanStep_at_limit he hc, he, hc]
    · have hlt : s.pos < 2 ^ s.aw := by
        have := h.working.pos_le_end; have := h.working.end_le; omega
      have hf : fetchGroup s = .ok (s.mem.read s.pos) := fetchGroup_ok.mpr ⟨hp, he, hc, hlt, rfl⟩
      simp [decoderStep, hf, exec_decodeGroup, whileScanning, hp, scanStep, he, hc]

theorem Scanning.scanToEnd_succ (h : Scanning s) (n : Nat) :
    scanToEnd (n + 1) s = scanToEnd n (scanStep s) := by
  simp [scanToEnd, h.phase_eq, h.step_eq]

theorem scanToEnd_of_not_scan (h : s.phase ≠ .scan) (n : Nat) : scanToEnd n s = .next s := by
  cases n <;> simp [scanToEnd, h]

/-- A continuation group leaves the scan in progress. -/
theorem Scanning.accumulate (h : Scanning s) (he : s.pos ≠ s.endPos)
    (hc : s.groupCount.toNat ≠ maxGroups s.op) (p : Payload) : Scanning (accumulate p s) :=
  ⟨h.phase_eq, h.inputs_eq, h.working.accumulate he hc p⟩

/-- Every group uses up one of those left. -/
theorem WorkingInv.groupsLeft_accumulate (h : WorkingInv s) (hc : s.groupCount.toNat ≠ maxGroups s.op)
    (p : Payload) : groupsLeft s = groupsLeft (Machine.accumulate p s) + 1 := by
  obtain ⟨-, -, hg⟩ := h.counters hc p
  have := h.count_le
  simp only [groupsLeft, hg, accumulate_op]
  omega

theorem terminate_phase_ne_scan (p : Payload) (s : State) : (terminate p s).phase ≠ .scan := by
  rcases terminate_cases p s with ⟨-, e⟩ | ⟨-, e⟩ <;> simp [e]

/-- A launch leaves the working registers as R28 has them, with no group read. -/
theorem startScan_scanning {c : OpCode} {a b : Nat} (hi : s.inputs = []) (h : a ≤ b) (hb : b ≤ 2 ^ s.aw) :
    Scanning (startScan c a b s) where
  phase_eq := rfl
  inputs_eq := hi
  working := ⟨rfl, Nat.zero_le _, Nat.zero_le _, h, hb, by simp⟩

/-- A whole operation is its launch, then the scan. -/
theorem Launchable.operate_eq {a b : Nat} (hl : Launchable s a b) (c : OpCode) :
    operate c a b s = scanToEnd 11 (startScan c a b { s with inputs := [] }) := by
  obtain ⟨hphase, hspan, hend⟩ := hl
  have hstep : step { s with inputs := [.launch c a b] } = .next (startScan c a b { s with inputs := [] }) := by
    rw [step_launch rfl]
    exact launch_next.mpr ⟨hphase, hspan, hend, rfl⟩
  simp [operate, hstep]

end

end Sys2Proof.Machine
end

section
/-! R12, by a simulation between two scans: they agree on the registers a group reads and on the bytes still ahead,
and each decoder step either keeps that agreement or ends both scans alike. -/

namespace Sys2Proof.Machine

/-- The bytes of the span the scan may still read. -/
def bytesAhead (s : State) : List Byte := (spanBytes s.mem s.pos s.endPos).take (groupsLeft s)

/-- Two scans the decoder cannot tell apart. POS, END, AW, MEM and the result registers may differ. -/
structure SameScan (s₁ s₂ : State) : Prop where
  op_eq : s₁.op = s₂.op
  acc_eq : s₁.acc = s₂.acc
  shift_eq : s₁.shift = s₂.shift
  count_eq : s₁.groupCount = s₂.groupCount
  ahead_eq : bytesAhead s₁ = bytesAhead s₂
  more_iff : groupsLeft s₁ < s₁.endPos - s₁.pos ↔ groupsLeft s₂ < s₂.endPos - s₂.pos

/-- Two ends the host cannot tell apart: VALUE is a result on success only (R104). -/
def SameEnd (t₁ t₂ : State) : Prop :=
  t₁.phase = t₂.phase ∧ t₁.len = t₂.len ∧ t₁.err = t₂.err ∧ (t₁.phase = .done → t₁.value = t₂.value)

theorem failWith_sameEnd (x : Cause) (s₁ s₂ : State) : SameEnd (failWith x s₁) (failWith x s₂) :=
  ⟨rfl, rfl, rfl, fun h => by cases h⟩

/-- How a terminating group ends depends on OP, ACC, SHIFT, GROUPCOUNT and its payload only. -/
theorem terminate_sameEnd {s₁ s₂ : State} (p : Payload) (ho : s₁.op = s₂.op) (ha : s₁.acc = s₂.acc)
    (hs : s₁.shift = s₂.shift) (hg : s₁.groupCount = s₂.groupCount) :
    SameEnd (terminate p s₁) (terminate p s₂) := by
  unfold terminate
  rw [ho, ha, hs]
  split
  · exact ⟨rfl, by simp [hg], rfl, fun _ => rfl⟩
  · exact failWith_sameEnd .overflow s₁ s₂

theorem bytesAhead_length (s : State) : (bytesAhead s).length = min (groupsLeft s) (s.endPos - s.pos) := by
  simp [bytesAhead]

/-- Where a byte is read, it is the first one ahead and a group leaves the others. -/
theorem WorkingInv.bytesAhead_cons {s : State} (h : WorkingInv s) (he : s.pos ≠ s.endPos)
    (hc : s.groupCount.toNat ≠ maxGroups s.op) (p : Payload) :
    bytesAhead s = s.mem.read s.pos :: bytesAhead (Machine.accumulate p s) := by
  have hlt : s.pos < s.endPos := by have := h.pos_le_end; omega
  simp [bytesAhead, spanBytes_cons s.mem hlt, h.groupsLeft_accumulate hc p]

namespace SameScan
variable {s₁ s₂ : State}

/-- Both scans are at the end of their span, or neither is. -/
theorem at_end_iff (h : SameScan s₁ s₂) (w₁ : WorkingInv s₁) (w₂ : WorkingInv s₂) :
    s₁.pos = s₁.endPos ↔ s₂.pos = s₂.endPos := by
  have hl := congrArg List.length h.ahead_eq
  rw [bytesAhead_length, bytesAhead_length] at hl
  have := h.more_iff; have := w₁.pos_le_end; have := w₂.pos_le_end
  omega

/-- Both scans have read all the groups there may be, or neither has. -/
theorem at_limit_iff (h : SameScan s₁ s₂) :
    s₁.groupCount.toNat = maxGroups s₁.op ↔ s₂.groupCount.toNat = maxGroups s₂.op := by
  rw [h.op_eq, h.count_eq]

/-- Where both scans read a byte, it is the same one, and its group keeps the agreement. -/
theorem read (h : SameScan s₁ s₂) (w₁ : WorkingInv s₁) (w₂ : WorkingInv s₂)
    (he₁ : s₁.pos ≠ s₁.endPos) (he₂ : s₂.pos ≠ s₂.endPos)
    (hc₁ : s₁.groupCount.toNat ≠ maxGroups s₁.op) (hc₂ : s₂.groupCount.toNat ≠ maxGroups s₂.op) (p : Payload) :
    s₁.mem.read s₁.pos = s₂.mem.read s₂.pos ∧ SameScan (accumulate p s₁) (accumulate p s₂) := by
  have ha := h.ahead_eq
  rw [w₁.bytesAhead_cons he₁ hc₁ p, w₂.bytesAhead_cons he₂ hc₂ p] at ha
  obtain ⟨hb, hrest⟩ := List.cons.inj ha
  refine ⟨hb, h.op_eq, ?_, ?_, ?_, hrest, ?_⟩
  · simp [h.acc_eq, h.shift_eq]
  · simp [h.shift_eq]
  · simp [h.count_eq]
  · have := h.more_iff
    have := w₁.groupsLeft_accumulate hc₁ p; have := w₂.groupsLeft_accumulate hc₂ p
    simp only [accumulate_endPos, accumulate_pos]
    omega

/-- One decoder step of both scans: they end alike, or they go on, still agreeing and with one group fewer left. -/
theorem scanStep_cases (h : SameScan s₁ s₂) (h₁ : Scanning s₁) (h₂ : Scanning s₂) :
    ((scanStep s₁).phase ≠ .scan ∧ (scanStep s₂).phase ≠ .scan ∧ SameEnd (scanStep s₁) (scanStep s₂)) ∨
    (Scanning (scanStep s₁) ∧ Scanning (scanStep s₂) ∧ SameScan (scanStep s₁) (scanStep s₂) ∧
      groupsLeft s₁ = groupsLeft (scanStep s₁) + 1) := by
  have w₁ := h₁.working
  have w₂ := h₂.working
  by_cases he₁ : s₁.pos = s₁.endPos
  · rw [scanStep_at_end he₁, scanStep_at_end ((h.at_end_iff w₁ w₂).mp he₁)]
    exact .inl ⟨by simp, by simp, failWith_sameEnd .truncated s₁ s₂⟩
  have he₂ : s₂.pos ≠ s₂.endPos := mt (h.at_end_iff w₁ w₂).mpr he₁
  by_cases hc₁ : s₁.groupCount.toNat = maxGroups s₁.op
  · rw [scanStep_at_limit he₁ hc₁, scanStep_at_limit he₂ (h.at_limit_iff.mp hc₁)]
    exact .inl ⟨by simp, by simp, failWith_sameEnd .tooLong s₁ s₂⟩
  have hc₂ : s₂.groupCount.toNat ≠ maxGroups s₂.op := mt h.at_limit_iff.mpr hc₁
  obtain ⟨hb, hs⟩ := h.read w₁ w₂ he₁ he₂ hc₁ hc₂ (payloadOf (s₂.mem.read s₂.pos))
  cases hf : contFlag (s₂.mem.read s₂.pos) with
  | true =>
    rw [scanStep_cont he₁ hc₁ (hb ▸ hf), scanStep_cont he₂ hc₂ hf, hb]
    exact .inr ⟨h₁.accumulate he₁ hc₁ _, h₂.accumulate he₂ hc₂ _, hs, w₁.groupsLeft_accumulate hc₁ _⟩
  | false =>
    rw [scanStep_term he₁ hc₁ (hb ▸ hf), scanStep_term he₂ hc₂ hf, hb]
    exact .inl ⟨terminate_phase_ne_scan _ _, terminate_phase_ne_scan _ _,
      terminate_sameEnd _ hs.op_eq hs.acc_eq hs.shift_eq hs.count_eq⟩

/-- With a step for each group left and one more, both scans end, and alike. -/
theorem ends_alike (h : SameScan s₁ s₂) (h₁ : Scanning s₁) (h₂ : Scanning s₂) {n : Nat} (hn : groupsLeft s₁ < n) :
    ∃ t₁ t₂, scanToEnd n s₁ = .next t₁ ∧ scanToEnd n s₂ = .next t₂ ∧ SameEnd t₁ t₂ := by
  induction n generalizing s₁ s₂ with
  | zero => omega
  | succ n ih =>
    rw [h₁.scanToEnd_succ, h₂.scanToEnd_succ]
    rcases h.scanStep_cases h₁ h₂ with ⟨hp₁, hp₂, hend⟩ | ⟨g₁, g₂, hs, hleft⟩
    · exact ⟨_, _, scanToEnd_of_not_scan hp₁ n, scanToEnd_of_not_scan hp₂ n, hend⟩
    · exact ih hs g₁ g₂ (by omega)

/-- Two launches of one operation over spans that agree where R12 says start two scans that agree. -/
theorem of_launch (c : OpCode) {a₁ b₁ a₂ b₂ : Nat}
    (hbytes : (spanBytes s₁.mem a₁ b₁).take (maxGroups c) = (spanBytes s₂.mem a₂ b₂).take (maxGroups c))
    (hmore : maxGroups c < b₁ - a₁ ↔ maxGroups c < b₂ - a₂) :
    SameScan (startScan c a₁ b₁ s₁) (startScan c a₂ b₂ s₂) :=
  ⟨rfl, rfl, rfl, rfl, hbytes, hmore⟩

end SameScan

/-- Settles O34, by the simulation between the two scans. -/
theorem resultIsPure : Obligations.ResultIsPure := by
  intro s₁ s₂ c a₁ b₁ a₂ b₂ hl₁ hl₂ hbytes hmore
  rw [hl₁.operate_eq, hl₂.operate_eq]
  obtain ⟨-, hspan₁, hend₁⟩ := hl₁
  obtain ⟨-, hspan₂, hend₂⟩ := hl₂
  have hsame : SameScan (startScan c a₁ b₁ { s₁ with inputs := [] }) (startScan c a₂ b₂ { s₂ with inputs := [] }) :=
    SameScan.of_launch c hbytes hmore
  exact hsame.ends_alike (startScan_scanning rfl hspan₁ hend₁) (startScan_scanning rfl hspan₂ hend₂)
    (Nat.lt_succ_of_le (maxGroups_le c))

end Sys2Proof.Machine
end

section
/-! What the four operations do: executing one is the launch with its code (R31, R57, R112). -/

namespace Sys2Proof.Machine

section
variable {s t : State} {a b : Nat}

/-- Where R112 admits the launch, the operation of each code answers R31's state. -/
theorem Launchable.exec_decodeLaunch (hl : Launchable s a b) (c : OpCode) :
    exec (decodeLaunch c a b) s = .next (startScan c a b s) := by
  obtain ⟨hphase, hspan, hend⟩ := hl
  rw [Machine.exec_decodeLaunch]
  exact launch_next.mpr ⟨hphase, hspan, hend, rfl⟩

/-- Every operation is the one some code decodes to (R57). -/
theorem exists_decodeLaunch_eq {i : Instr}
    (hi : i = .decodeU32 a b ∨ i = .decodeI32 a b ∨ i = .decodeU64 a b ∨ i = .decodeI64 a b) :
    ∃ c, i = decodeLaunch c a b := by
  rcases hi with rfl | rfl | rfl | rfl
  · exact ⟨0b00#2, rfl⟩
  · exact ⟨0b01#2, rfl⟩
  · exact ⟨0b10#2, rfl⟩
  · exact ⟨0b11#2, rfl⟩

end

/-- Settles O8, from the launch of each code. -/
theorem operationsLaunch : Obligations.OperationsLaunch := fun _ _ _ hl =>
  ⟨hl.exec_decodeLaunch 0b00#2, hl.exec_decodeLaunch 0b01#2, hl.exec_decodeLaunch 0b10#2, hl.exec_decodeLaunch 0b11#2⟩

/-- Settles O10: a launch that answers a next state answers `startScan`, which writes working registers only. -/
theorem operationsFrame : Obligations.OperationsFrame := by
  intro s t a b i hi h
  obtain ⟨c, rfl⟩ := exists_decodeLaunch_eq hi
  rw [exec_decodeLaunch, launch_next] at h
  obtain ⟨-, -, -, rfl⟩ := h
  exact ⟨⟨rfl, rfl, rfl⟩, ⟨rfl, rfl, rfl⟩, rfl, rfl, fun _ => rfl⟩

end Sys2Proof.Machine
end

section
/-! The invariant, operation by operation: each shared operation keeps it, and every step is one of them (R28, R29,
R23 to R25). -/

namespace Sys2Proof.Machine

section
variable {s t : State}

/-! ### The result registers -/

theorem causeErr_ne_noError (x : Cause) : causeErr x ≠ .noError := by
  cases x <;> decide

/-- A failure's length is negative (R25, R104). -/
theorem causeLen_toInt_neg (x : Cause) : (causeLen x).toInt < 0 := by
  cases x <;> decide

/-- Failure entry meets the result contract, whatever the cause (R104). -/
theorem failWith_resultInv (x : Cause) (s : State) : ResultInv (failWith x s) where
  width := by simp
  done_iff := by
    have := causeLen_toInt_neg x
    simp only [failWith_phase, failWith_len, reduceCtorEq, false_iff]
    omega
  done_len h := by cases h
  fail_len _ := ⟨causeErr_ne_noError x, rfl⟩

/-- A length equal to a group count reads as that number: five bits hold it with a zero sign bit. -/
theorem toInt_of_toNat_eq_count {l : BitVec 5} {g : BitVec 4} (h : l.toNat = g.toNat) : l.toInt = g.toNat := by
  have := g.isLt
  rw [BitVec.toInt_eq_toNat_of_lt (by omega), h]

/-- Success after at least one group meets the result contract (R82). -/
theorem succeed_resultInv {v : Value} (hv : valueWidth v = bits s.op) (hg : 0 < s.groupCount.toNat) :
    ResultInv (succeed v s) := by
  have hlen : (succeed v s).len.toNat = s.groupCount.toNat := by
    have := s.groupCount.isLt
    rw [succeed_len, BitVec.toNat_setWidth, Nat.mod_eq_of_lt (by omega)]
  refine ⟨hv, ?_, fun _ => ⟨hlen, rfl⟩, fun h => by cases h⟩
  rw [toInt_of_toNat_eq_count hlen]
  simpa using hg

/-- Both ends of a terminating group meet the result contract (R76, R82, R103). -/
theorem terminate_resultInv (p : Payload) (hg : 0 < s.groupCount.toNat) : ResultInv (terminate p s) := by
  rcases terminate_cases p s with ⟨-, e⟩ | ⟨-, e⟩ <;> rw [e]
  · exact succeed_resultInv (by simp) hg
  · exact failWith_resultInv .overflow s

/-! ### The working registers -/

/-- A fresh operation has read no group (R31). -/
theorem startScan_workingInv (c : OpCode) {a b : Nat} (h : a ≤ b) (hb : b ≤ 2 ^ s.aw) :
    WorkingInv (startScan c a b s) :=
  (startScan_scanning (s := { s with inputs := [] }) rfl h hb).working.congr ⟨rfl, rfl, rfl, rfl, rfl, rfl⟩ rfl

theorem startScan_scanInv (c : OpCode) (a b : Nat) (s : State) : ScanInv (startScan c a b s) := by
  constructor <;> simp [spanBytes, assemble, allContinue]

theorem WorkingInv.failWith (h : WorkingInv s) (x : Cause) : WorkingInv (failWith x s) :=
  h.congr ⟨rfl, rfl, rfl, rfl, rfl, rfl⟩ rfl

theorem WorkingInv.terminate (h : WorkingInv s) (p : Payload) : WorkingInv (terminate p s) := by
  obtain ⟨hop, hend, hpos, hacc, hshift, hcount, haw, -⟩ := terminate_frame p s
  exact h.congr ⟨hop, hend, hpos, hacc, hshift, hcount⟩ haw

/-- After a group the bytes read are those before it and its own (R72, R74). -/
theorem WorkingInv.spanBytes_accumulate (h : WorkingInv s) (hc : s.groupCount.toNat ≠ maxGroups s.op) (p : Payload) :
    spanBytes s.mem (s.pos + 1 - (Machine.accumulate p s).groupCount.toNat) (s.pos + 1) =
      spanBytes s.mem (s.pos - s.groupCount.toNat) s.pos ++ [s.mem.read s.pos] := by
  obtain ⟨-, -, hcount⟩ := h.counters hc p
  rw [hcount, Nat.add_sub_add_right, spanBytes_succ _ (Nat.sub_le _ _)]

/-- A continuation group keeps the accumulator equal to the payloads read (R29, R72). -/
theorem ScanInv.accumulate (hs : ScanInv s) (h : WorkingInv s) (hc : s.groupCount.toNat ≠ maxGroups s.op)
    (hb : contFlag (s.mem.read s.pos) = true) : ScanInv (accumulate (payloadOf (s.mem.read s.pos)) s) := by
  have hspan := h.spanBytes_accumulate hc (payloadOf (s.mem.read s.pos))
  constructor
  · have hread : s.pos - (s.pos - s.groupCount.toNat) = s.groupCount.toNat := Nat.sub_sub_self h.start_nonneg
    rw [accumulate_mem, accumulate_pos, hspan, assemble_append, spanBytes_length, hread, ← h.shift_eq,
      ← hs.acc_eq, ← payloadOf_toNat]
    exact h.acc hc _
  · rw [accumulate_mem, accumulate_pos, hspan]
    intro x hx
    rcases List.mem_append.mp hx with hx | hx
    · exact hs.continues x hx
    · rw [List.mem_singleton.mp hx]
      simpa [contFlag_eq] using hb

/-! ### The whole invariant -/

namespace MachineInv

/-- Where AW and the memory stay and the working registers meet R28, what remains is PHASE's own part. -/
theorem of_workingInv (h : MachineInv s) (haw : t.aw = s.aw) (hmem : t.mem = s.mem) (hw : WorkingInv t)
    (hscan : t.phase = .scan → ScanInv t) (hres : t.phase = .done ∨ t.phase = .fail → ResultInv t) :
    MachineInv t := by
  have hlt : 2 ^ t.aw < 2 ^ (t.aw + 1) := Nat.pow_lt_pow_right (by omega) (by omega)
  have hpos := hw.pos_le_end
  have hend := hw.end_le
  exact {
    aw_pos := haw ▸ h.aw_pos
    mem_wf := hmem ▸ h.mem_wf
    mem_inside := by rw [hmem, haw]; exact h.mem_inside
    pos_fits := by omega
    end_fits := by omega
    working := fun _ => hw
    scanning := hscan
    result := hres }

/-- The invariant does not look at the host's record nor at the draw counter. -/
theorem withHostRecord (h : MachineInv s) (i : List HostAction) (r : Option Reply) (d : Nat) :
    MachineInv { s with inputs := i, reply := r, draws := d } where
  aw_pos := h.aw_pos
  mem_wf := h.mem_wf
  mem_inside := h.mem_inside
  pos_fits := h.pos_fits
  end_fits := h.end_fits
  working hp := (h.working hp).congr ⟨rfl, rfl, rfl, rfl, rfl, rfl⟩ rfl
  scanning hp := have hs := h.scanning hp; ⟨hs.acc_eq, hs.continues⟩
  result hp := have hr := h.result hp; ⟨hr.width, hr.done_iff, hr.done_len, hr.fail_len⟩

theorem withInputs (h : MachineInv s) (i : List HostAction) : MachineInv { s with inputs := i } :=
  h.withHostRecord i s.reply s.draws

/-- A reset meets the invariant over any well-formed memory, whatever it draws (R32). -/
theorem of_resetBlock (haw : 0 < s.aw) (hwf : s.mem.wf = true) (hin : ∀ c ∈ s.mem, c.1 < 2 ^ s.aw) :
    MachineInv (resetBlock s) where
  aw_pos := haw
  mem_wf := hwf
  mem_inside := hin
  pos_fits := Nat.mod_lt _ (Nat.two_pow_pos _)
  end_fits := Nat.mod_lt _ (Nat.two_pow_pos _)
  working h := absurd rfl h
  scanning h := by cases h
  result h := by rcases h with h | h <;> cases h

theorem startScan (h : MachineInv s) (c : OpCode) {a b : Nat} (hab : a ≤ b) (hb : b ≤ 2 ^ s.aw) :
    MachineInv (startScan c a b s) :=
  h.of_workingInv rfl rfl (startScan_workingInv c hab hb) (fun _ => startScan_scanInv c a b s)
    (fun hp => by rcases hp with hp | hp <;> cases hp)

theorem failWith (h : MachineInv s) (hp : s.phase = .scan) (x : Cause) : MachineInv (failWith x s) :=
  h.of_workingInv rfl rfl ((h.working (by simp [hp])).failWith x) (fun hf => by cases hf)
    (fun _ => failWith_resultInv x s)

/-- Off the bytes a scan has read, the host's write does not disturb it (R46, R118 item 4). -/
theorem memWrite (h : MachineInv s) {a : Nat} (ha : a < 2 ^ s.aw) (x : Byte)
    (hoff : ¬(s.phase = .scan ∧ inSpan s a = true)) : MachineInv { s with mem := s.mem.write a x } where
  aw_pos := h.aw_pos
  mem_wf := Memory.write_wf h.mem_wf a x
  mem_inside c hc := by
    rcases Memory.mem_write hc with hc | rfl
    · exact h.mem_inside c hc
    · exact ha
  pos_fits := h.pos_fits
  end_fits := h.end_fits
  working hp := (h.working hp).congr ⟨rfl, rfl, rfl, rfl, rfl, rfl⟩ rfl
  scanning hp := by
    have hp : s.phase = .scan := hp
    have hs := h.scanning hp
    have hend := (h.working (by simp [hp])).pos_le_end
    have hout : a < s.pos - s.groupCount.toNat ∨ s.pos ≤ a := by
      simp [hp, inSpan] at hoff
      omega
    have hspan := spanBytes_write_outside s.mem x hout
    exact ⟨hs.acc_eq.trans (congrArg assemble hspan.symm), hspan ▸ hs.continues⟩
  result hp := have hr := h.result hp; ⟨hr.width, hr.done_iff, hr.done_len, hr.fail_len⟩

/-- A decoder step keeps the invariant (R70). -/
theorem decoderStep (h : MachineInv s) (hstep : decoderStep s = .next t) : MachineInv t := by
  obtain ⟨hp, hcases⟩ := decoderStep_next hstep
  have hw : WorkingInv s := h.working (by simp [hp])
  rcases hcases with ⟨-, rfl⟩ | ⟨-, -, rfl⟩ | ⟨he, hc, -, hgroup⟩
  · exact h.failWith hp .truncated
  · exact h.failWith hp .tooLong
  have hacc := hw.accumulate he hc (payloadOf (s.mem.read s.pos))
  rcases hgroup with ⟨hb, rfl⟩ | ⟨-, rfl⟩
  · exact h.of_workingInv rfl rfl hacc (fun _ => (h.scanning hp).accumulate hw hc hb)
      (fun hr => by simp [hp] at hr)
  · obtain ⟨-, -, hcount⟩ := hw.counters hc (payloadOf (s.mem.read s.pos))
    obtain ⟨-, -, -, -, -, -, haw, hmem, -⟩ :=
      terminate_frame (payloadOf (s.mem.read s.pos)) (accumulate (payloadOf (s.mem.read s.pos)) s)
    exact h.of_workingInv haw hmem (hacc.terminate _) (fun hs => absurd hs (terminate_phase_ne_scan _ _))
      (fun _ => terminate_resultInv _ (by omega))

end MachineInv

end

/-- Settles O27, by the lemma of each shared operation along the cases of a step. -/
theorem invKept : Obligations.InvKept := by
  intro s t h hstep
  rcases step_next hstep with ⟨-, hd⟩ | ⟨r, -, hd⟩ | ⟨r, -, -, hd⟩ | ⟨r, -, -, rfl⟩ |
    ⟨r, c, a, b, -, -, hab, hb, rfl⟩ | ⟨r, -, -, rfl⟩ | ⟨r, -, -, rfl⟩ | ⟨r, -, rfl⟩ | ⟨r, -, rfl⟩ |
    ⟨r, a, x, -, ha, hoff, rfl⟩
  · exact h.decoderStep hd
  · exact (h.withInputs r).decoderStep hd
  · exact h.decoderStep hd
  · exact h.withInputs r
  · exact (h.withInputs r).startScan c hab hb
  · exact h.withHostRecord r _ s.draws
  · exact h.withHostRecord r _ _
  · exact h.withHostRecord r _ s.draws
  · exact .of_resetBlock h.aw_pos h.mem_wf h.mem_inside
  · exact (h.withInputs r).memWrite ha x hoff

/-- Settles O26: State.reset is a reset over the empty memory. -/
theorem invAtReset : Obligations.InvAtReset := by
  unfold Obligations.InvAtReset
  rw [reset_eq_resetBlock]
  exact .of_resetBlock (by decide) rfl (fun _ hc => nomatch hc)

end Sys2Proof.Machine
end

section
/-! What the invariant says of LEN and ERR, read as numbers (R24, R25). -/

namespace Sys2Proof.Machine

/-- A failure's length is its code, negated (R25, R104). -/
theorem neg_errCode_toInt (e : Err) : (-((errCode e).setWidth 5)).toInt = -(errCode e).toNat := by
  cases e <;> decide

theorem errCode_toNat_pos {e : Err} (h : e ≠ .noError) : 0 < (errCode e).toNat := by
  cases e
  · exact absurd rfl h
  all_goals decide

/-- Settles O28, from the result contract and the bound of GROUPCOUNT in the invariant. -/
theorem lengthContract : Obligations.LengthContract := by
  intro s h
  constructor
  · intro hp
    have hr := h.result (.inl hp)
    obtain ⟨hlen, herr⟩ := hr.done_len hp
    have hpos : 0 < s.len.toInt := hr.done_iff.mp hp
    have hcount : s.groupCount.toNat ≤ maxGroups s.op := (h.working (by simp [hp])).count_le
    refine ⟨hpos, ?_, hlen, herr⟩
    rw [toInt_of_toNat_eq_count hlen]
    exact_mod_cast hcount
  · intro hp
    obtain ⟨herr, hlen⟩ := (h.result (.inr hp)).fail_len hp
    have hcode := errCode_toNat_pos herr
    rw [hlen, neg_errCode_toInt]
    exact ⟨rfl, by omega, herr⟩

end Sys2Proof.Machine
end

section
/-! How PHASE moves: one inversion of the step for PHASE alone (R14). -/

namespace Sys2Proof.Machine

section
variable {s t : State}

/-- A decoder step goes from SCAN to SCAN or to an end. -/
theorem decoderStep_phase (h : decoderStep s = .next t) :
    s.phase = .scan ∧ (t.phase = .scan ∨ t.phase = .done ∨ t.phase = .fail) := by
  obtain ⟨hp, hcases⟩ := decoderStep_next h
  refine ⟨hp, ?_⟩
  rcases hcases with ⟨-, rfl⟩ | ⟨-, -, rfl⟩ | ⟨-, -, -, ⟨-, rfl⟩ | ⟨-, rfl⟩⟩
  · exact .inr (.inr rfl)
  · exact .inr (.inr rfl)
  · exact .inl hp
  · rcases terminate_cases (payloadOf (s.mem.read s.pos)) (accumulate (payloadOf (s.mem.read s.pos)) s) with
      ⟨-, e⟩ | ⟨-, e⟩ <;> rw [e]
    · exact .inr (.inl rfl)
    · exact .inr (.inr rfl)

/-- A turn of the decoder shows in the first pending action (log 1). -/
theorem DecoderTurn.head {rest : List HostAction} (h : DecoderTurn s rest) :
    s.inputs.head? = none ∨ s.inputs.head? = some .dec ∨ s.inputs.head? = some .wait := by
  rcases h with ⟨hi, -⟩ | hi | ⟨r, hi, -⟩ <;> simp [hi]

/-- What a step does to PHASE: reset, launch, a decoder step, or nothing. -/
theorem step_next_phase (h : step s = .next t) :
    (s.inputs.head? = some .reset ∧ t.phase = .idle) ∨
    ((∃ c a b, s.inputs.head? = some (.launch c a b)) ∧ s.phase ≠ .scan ∧ t.phase = .scan) ∨
    ((∃ rest, DecoderTurn s rest) ∧ s.phase = .scan ∧ (t.phase = .scan ∨ t.phase = .done ∨ t.phase = .fail)) ∨
    (s.inputs.head? ≠ some .reset ∧ (∀ c a b, s.inputs.head? ≠ some (.launch c a b)) ∧ t.phase = s.phase) := by
  rcases step_next h with ⟨hi, hd⟩ | ⟨r, hi, hd⟩ | ⟨r, hi, -, hd⟩ | ⟨r, hi, -, rfl⟩ |
    ⟨r, c, a, b, hi, hp, -, -, rfl⟩ | ⟨r, hi, -, rfl⟩ | ⟨r, hi, -, rfl⟩ | ⟨r, hi, rfl⟩ | ⟨r, hi, rfl⟩ |
    ⟨r, a, x, hi, -, -, rfl⟩
  · exact .inr (.inr (.inl ⟨⟨[], .inl ⟨hi, rfl⟩⟩, decoderStep_phase hd⟩))
  · exact .inr (.inr (.inl ⟨⟨r, .inr (.inl hi)⟩, decoderStep_phase (s := { s with inputs := r }) hd⟩))
  · exact .inr (.inr (.inl ⟨⟨.wait :: r, .inr (.inr ⟨r, hi, rfl⟩)⟩, decoderStep_phase hd⟩))
  · exact .inr (.inr (.inr (by simp [hi])))
  · exact .inr (.inl ⟨⟨c, a, b, by simp [hi]⟩, hp, rfl⟩)
  · exact .inr (.inr (.inr (by simp [hi])))
  · exact .inr (.inr (.inr (by simp [hi])))
  · exact .inr (.inr (.inr (by simp [hi])))
  · exact .inl ⟨by simp [hi], rfl⟩
  · exact .inr (.inr (.inr (by simp [hi])))

end

/-- Settles O22, by the cases of a step for PHASE. -/
theorem phaseTransitions : Obligations.PhaseTransitions := by
  refine ⟨⟨rfl, rfl, rfl, rfl⟩, ?_, fun s => decoderStep_of_not_scan, fun s rest hi => step_phase hi⟩
  intro s t h
  rcases step_next_phase h with ⟨hi, ht⟩ | ⟨⟨c, a, b, hi⟩, hs, ht⟩ | ⟨⟨rest, hturn⟩, hs, ht⟩ | ⟨hreset, hlaunch, ht⟩
  · exact ⟨fun _ => ht, by simp [hi], fun _ => .inl hi⟩
  · exact ⟨by simp [hi], fun _ _ _ _ => ⟨hs, ht⟩, fun _ => .inr (.inl ⟨c, a, b, hi⟩)⟩
  · have hhead := hturn.head
    refine ⟨fun hi => by simp [hi] at hhead, fun c a b hi => by simp [hi] at hhead, fun hne => ?_⟩
    exact .inr (.inr ⟨hhead, hs, ht.resolve_left (hs ▸ hne)⟩)
  · exact ⟨fun hi => absurd hi hreset, fun c a b hi => absurd hi (hlaunch c a b), fun hne => absurd ht hne⟩

end Sys2Proof.Machine
end

section
/-! What touches the byte memory: the decoder reads the byte at POS only and writes none; the host's own write changes
one byte (R38 to R40, R46, R91). -/

namespace Sys2Proof.Machine

section
variable {s t : State}

/-! ### The decoder's step over another memory -/

/-- A decoder step answers exactly while scanning and either fails before its read or has a byte at POS; the answer is
then that of the scan (R70, R36). -/
theorem decoderStep_next_iff :
    decoderStep s = .next t ↔ s.phase = .scan ∧
      (s.pos = s.endPos ∨ s.groupCount.toNat = maxGroups s.op ∨ s.pos < 2 ^ s.aw) ∧ t = scanStep s := by
  constructor
  · intro h
    obtain ⟨hp, hcases⟩ := decoderStep_next h
    rcases hcases with ⟨he, rfl⟩ | ⟨he, hc, rfl⟩ | ⟨he, hc, hlt, ⟨hb, rfl⟩ | ⟨hb, rfl⟩⟩
    · exact ⟨hp, .inl he, (scanStep_at_end he).symm⟩
    · exact ⟨hp, .inr (.inl hc), (scanStep_at_limit he hc).symm⟩
    · exact ⟨hp, .inr (.inr hlt), (scanStep_cont he hc hb).symm⟩
    · exact ⟨hp, .inr (.inr hlt), (scanStep_term he hc hb).symm⟩
  · rintro ⟨hp, hread, rfl⟩
    by_cases he : s.pos = s.endPos
    · simp [decoderStep, fetchGroup, hp, he, scanStep_at_end he]
    · by_cases hc : s.groupCount.toNat = maxGroups s.op
      · simp [decoderStep, fetchGroup, hp, he, hc, scanStep_at_limit he hc]
      · have hlt : s.pos < 2 ^ s.aw := (hread.resolve_left he).resolve_left hc
        have hf : fetchGroup s = .ok (s.mem.read s.pos) := fetchGroup_ok.mpr ⟨hp, he, hc, hlt, rfl⟩
        simp [decoderStep, hf, exec_decodeGroup, whileScanning, hp, scanStep, he, hc]

/-- A terminating group does not look at the memory: its payload is all it has from there. -/
theorem terminate_withMem (p : Payload) (s : State) (m : Memory) :
    terminate p { s with mem := m } = { terminate p s with mem := m } := by
  rcases terminate_cases p s with ⟨hf, e⟩ | ⟨hf, e⟩
  · rw [e]; simp only [terminate, hf]; rfl
  · rw [e]; simp only [terminate, hf]; rfl

/-- Two memories with the same byte at POS scan alike, and any two do where the step fails before its read (R40, R73). -/
theorem scanStep_withMem {m : Memory}
    (h : m.read s.pos = s.mem.read s.pos ∨ s.pos = s.endPos ∨ s.groupCount.toNat = maxGroups s.op) :
    scanStep { s with mem := m } = { scanStep s with mem := m } := by
  by_cases he : s.pos = s.endPos
  · rw [scanStep_at_end he, scanStep_at_end (s := { s with mem := m }) he]; rfl
  by_cases hc : s.groupCount.toNat = maxGroups s.op
  · rw [scanStep_at_limit he hc, scanStep_at_limit (s := { s with mem := m }) he hc]; rfl
  have hbyte : m.read s.pos = s.mem.read s.pos := h.resolve_right (by simp [he, hc])
  cases hb : contFlag (s.mem.read s.pos) with
  | true =>
    rw [scanStep_cont he hc hb, scanStep_cont (s := { s with mem := m }) he hc (hbyte ▸ hb)]
    simp only [hbyte]; rfl
  | false =>
    rw [scanStep_term he hc hb, scanStep_term (s := { s with mem := m }) he hc (hbyte ▸ hb), ← terminate_withMem]
    simp only [hbyte]; rfl

/-- Before the end of its span a scan's POS is a position of the span and of the memory (R28, R40). -/
theorem WorkingInv.pos_inside (h : WorkingInv s) (he : s.pos ≠ s.endPos) : s.pos < s.endPos ∧ s.pos < 2 ^ s.aw := by
  have := h.pos_le_end; have := h.end_le
  omega

/-! ### What is left unchanged -/

/-- A decoder step leaves AW and the memory (R39). -/
theorem decoderStep_frame (h : decoderStep s = .next t) : t.aw = s.aw ∧ t.mem = s.mem := by
  obtain ⟨-, hcases⟩ := decoderStep_next h
  rcases hcases with ⟨-, rfl⟩ | ⟨-, -, rfl⟩ | ⟨-, -, -, ⟨-, rfl⟩ | ⟨-, rfl⟩⟩
  · exact ⟨rfl, rfl⟩
  · exact ⟨rfl, rfl⟩
  · exact ⟨rfl, rfl⟩
  · obtain ⟨-, -, -, -, -, -, haw, hmem, -⟩ :=
      terminate_frame (payloadOf (s.mem.read s.pos)) (accumulate (payloadOf (s.mem.read s.pos)) s)
    exact ⟨haw, hmem⟩

theorem inSpan_iff {a : Nat} : inSpan s a = true ↔ s.pos - s.groupCount.toNat ≤ a ∧ a < s.endPos := by
  simp [inSpan]

/-- Outside a scan, or off its span, the host's pending write is admitted (R46, log 10). -/
theorem step_memWrite_admitted {a : Nat} {x : Byte} {rest : List HostAction} (hi : s.inputs = .memWrite a x :: rest)
    (ha : a < 2 ^ s.aw) (hoff : s.phase ≠ .scan ∨ a < s.pos - s.groupCount.toNat ∨ s.endPos ≤ a) :
    step s = .next { s with inputs := rest, mem := s.mem.write a x } := by
  rw [step_memWrite hi]
  refine hostMemWrite_next.mpr ⟨ha, ?_, rfl⟩
  rintro ⟨hp, hin⟩
  have hspan : s.pos - s.groupCount.toNat ≤ a ∧ a < s.endPos := inSpan_iff.mp hin
  rcases hoff with hnot | hbelow | habove
  · exact hnot hp
  · omega
  · omega

end

/-- Settles O24: the step is the scan's, which sees the memory at POS only; the bounds of POS are the invariant's. -/
theorem readsOnlyAtPos : Obligations.ReadsOnlyAtPos := by
  intro s t m hp hi hstep
  rw [step_nil hi, decoderStep_next_iff] at hstep
  obtain ⟨-, hread, rfl⟩ := hstep
  constructor
  · intro hsame
    rw [step_nil (s := { s with mem := m }) hi, decoderStep_next_iff]
    exact ⟨hp, hread, (scanStep_withMem hsame).symm⟩
  · intro hinv he
    obtain ⟨hend, hmem⟩ := (hinv.working (by simp [hp])).pos_inside he
    exact ⟨Nat.sub_le _ _, hend, hmem, Nat.mod_eq_of_lt hmem⟩

/-- Settles O23, by the cases of a step: the decoder's step has its frame, and the host's write alone writes. -/
theorem neverWritesMemory : Obligations.NeverWritesMemory := by
  intro s t h
  rcases step_next h with ⟨-, hd⟩ | ⟨r, -, hd⟩ | ⟨r, -, -, hd⟩ | ⟨r, -, -, rfl⟩ | ⟨r, c, a, b, -, -, -, -, rfl⟩ |
    ⟨r, -, -, rfl⟩ | ⟨r, -, -, rfl⟩ | ⟨r, -, rfl⟩ | ⟨r, -, rfl⟩ | ⟨r, a, x, hi, -, -, rfl⟩
  · exact (decoderStep_frame hd).imp_right fun hmem _ => hmem
  · exact (decoderStep_frame (s := { s with inputs := r }) hd).imp_right fun hmem _ => hmem
  · exact (decoderStep_frame hd).imp_right fun hmem _ => hmem
  · exact ⟨rfl, fun _ => rfl⟩
  · exact ⟨rfl, fun _ => rfl⟩
  · exact ⟨rfl, fun _ => rfl⟩
  · exact ⟨rfl, fun _ => rfl⟩
  · exact ⟨rfl, fun _ => rfl⟩
  · exact ⟨rfl, fun _ => rfl⟩
  · exact ⟨rfl, fun hno => absurd (by simp [hi]) (hno a x)⟩

/-- Settles O41, by the rules of the memory for the state the admitted write leaves. -/
theorem hostWrites : Obligations.HostWrites := by
  intro s a x rest hi hwf ha hoff
  exact ⟨_, step_memWrite_admitted hi ha hoff, Memory.read_write_same hwf a x,
    fun y hy => Memory.read_write_other s.mem x hy, Memory.write_wf hwf a x, rfl,
    ⟨rfl, rfl, rfl, rfl, rfl, rfl⟩, ⟨rfl, rfl, rfl⟩, rfl⟩

end Sys2Proof.Machine
end

section
/-! The encodings: every instruction is what one of the two decoders reads from a code or a byte, so each law of the
encoder, of well-formedness and of the table's rows is said once per decoder (R51, R57, R58, R66). -/

namespace Sys2Proof.Machine

/-! ### The two decoders and what they read -/

/-- All four operation codes are used (R57). -/
theorem opCode_cases (c : OpCode) : c = 0b00#2 ∨ c = 0b01#2 ∨ c = 0b10#2 ∨ c = 0b11#2 := by
  revert c; decide

/-- A byte is its flag above its payload (R51). -/
theorem contFlag_append_payloadOf (b : Byte) : BitVec.ofBool (contFlag b) ++ payloadOf b = b := by
  revert b; decide

theorem contFlag_append (x : BitVec 1) (p : Payload) : contFlag (x ++ p) = x.getLsbD 0 := by
  rw [contFlag, BitVec.getLsbD_append, if_neg (by decide)]

theorem payloadOf_append (x : BitVec 1) (p : Payload) : payloadOf (x ++ p) = p :=
  BitVec.extractLsb'_append_eq_right

theorem decodeGroup_one_append (p : Payload) : decodeGroup (1#1 ++ p) = .groupCont p := by
  rw [decodeGroup, contFlag_append, payloadOf_append]; rfl

theorem decodeGroup_zero_append (p : Payload) : decodeGroup (0#1 ++ p) = .groupTerm p := by
  rw [decodeGroup, contFlag_append, payloadOf_append]; rfl

/-- Every instruction is what some code with its span, or some byte, decodes to (R66). -/
theorem exists_eq_decodeLaunch_or_decodeGroup (i : Instr) :
    (∃ c a b, i = decodeLaunch c a b) ∨ ∃ b, i = decodeGroup b := by
  cases i with
  | decodeU32 a b => exact .inl ⟨0b00#2, a, b, rfl⟩
  | decodeI32 a b => exact .inl ⟨0b01#2, a, b, rfl⟩
  | decodeU64 a b => exact .inl ⟨0b10#2, a, b, rfl⟩
  | decodeI64 a b => exact .inl ⟨0b11#2, a, b, rfl⟩
  | groupCont p => exact .inr ⟨1#1 ++ p, (decodeGroup_one_append p).symm⟩
  | groupTerm p => exact .inr ⟨0#1 ++ p, (decodeGroup_zero_append p).symm⟩

/-- The payload of a byte as the byte's number, cut to seven bits (R51). -/
theorem payloadOf_eq_ofNat (b : Byte) : payloadOf b = BitVec.ofNat 7 b.toNat := by
  apply BitVec.eq_of_toNat_eq
  rw [payloadOf_toNat, payloadNat, BitVec.toNat_ofNat]

theorem decodeGroup_of_lt {b : Byte} (h : b.toNat < 128) : decodeGroup b = .groupTerm (payloadOf b) := by
  simp [decodeGroup, contFlag_eq, h]

theorem decodeGroup_of_le {b : Byte} (h : 128 ≤ b.toNat) : decodeGroup b = .groupCont (payloadOf b) := by
  simp [decodeGroup, contFlag_eq, h]

/-! ### The encoder and well-formedness over each decoder -/

section
variable (aw : Nat) (c : OpCode) (a b : Nat) (x : Byte)

theorem encode_decodeLaunch : encode aw (decodeLaunch c a b) = (.opsel, launchWord aw c a b) := by
  rcases opCode_cases c with rfl | rfl | rfl | rfl <;> rfl

theorem wellFormed_decodeLaunch : wellFormed aw (decodeLaunch c a b) = (positionFits aw a && positionFits aw b) := by
  rcases opCode_cases c with rfl | rfl | rfl | rfl <;> rfl

theorem encode_decodeGroup : encode aw (decodeGroup x) = (.group, x.toNat) := by
  conv_rhs => rw [← contFlag_append_payloadOf x]
  unfold decodeGroup
  cases contFlag x <;> rfl

theorem wellFormed_decodeGroup : wellFormed aw (decodeGroup x) = true := by
  unfold decodeGroup
  cases contFlag x <;> rfl

end

/-! ### The decoder of one number, by its width -/

section
variable {aw w : Nat}

theorem decodeWord_group_of_lt (h : w < 2 ^ 8) : decodeWord aw .group w = .ok (decodeGroup (BitVec.ofNat 8 w)) :=
  if_pos h

theorem decodeWord_group_of_le (h : 2 ^ 8 ≤ w) : decodeWord aw .group w = .error .groupTooWide :=
  if_neg (Nat.not_lt.mpr h)

theorem decodeWord_opsel_of_lt (h : w < 2 ^ launchWidth aw) : decodeWord aw .opsel w =
    .ok (decodeLaunch (BitVec.ofNat 2 w) (w / 2 ^ 2 % 2 ^ (aw + 1)) (w / 2 ^ (2 + (aw + 1)))) :=
  if_pos h

theorem decodeWord_opsel_of_le (h : 2 ^ launchWidth aw ≤ w) : decodeWord aw .opsel w = .error .launchTooWide :=
  if_neg (Nat.not_lt.mpr h)

end

theorem decodeWord_group_toNat (aw : Nat) (b : Byte) : decodeWord aw .group b.toNat = .ok (decodeGroup b) := by
  rw [decodeWord_group_of_lt b.isLt, BitVec.ofNat_toNat, BitVec.setWidth_eq]

/-! ### A launch's wires in one number (R58, R117; their order is log 13) -/

section
variable {aw a b : Nat}

theorem positionFits_iff : positionFits aw a = true ↔ a < 2 ^ (aw + 1) := decide_eq_true_iff

theorem two_pow_launchWidth (aw : Nat) : 2 ^ launchWidth aw = 2 ^ 2 * (2 ^ (aw + 1) * 2 ^ (aw + 1)) := by
  rw [launchWidth, Nat.two_mul, Nat.pow_add, Nat.pow_add]

theorem launchWord_lt (c : OpCode) (ha : a < 2 ^ (aw + 1)) (hb : b < 2 ^ (aw + 1)) :
    launchWord aw c a b < 2 ^ launchWidth aw := by
  have hc : c.toNat < 2 ^ 2 := c.isLt
  have hspan : a + 2 ^ (aw + 1) * b < 2 ^ (aw + 1) * 2 ^ (aw + 1) := calc
    a + 2 ^ (aw + 1) * b < 2 ^ (aw + 1) * (b + 1) := by rw [Nat.mul_succ]; omega
    _ ≤ 2 ^ (aw + 1) * 2 ^ (aw + 1) := Nat.mul_le_mul_left _ hb
  rw [two_pow_launchWidth, launchWord]
  omega

theorem ofNat_launchWord (c : OpCode) (a b : Nat) : BitVec.ofNat 2 (launchWord aw c a b) = c := by
  apply BitVec.eq_of_toNat_eq
  rw [BitVec.toNat_ofNat, launchWord, Nat.add_mul_mod_self_left, Nat.mod_eq_of_lt c.isLt]

/-- The wires above the code are the two positions. -/
theorem launchWord_div_four (c : OpCode) (a b : Nat) : launchWord aw c a b / 2 ^ 2 = a + 2 ^ (aw + 1) * b := by
  rw [launchWord, Nat.add_mul_div_left _ _ (by decide), Nat.div_eq_of_lt c.isLt, Nat.zero_add]

/-- The decoder reads each field of a launch's wires back, if the positions fit their wires. -/
theorem decodeWord_launchWord (c : OpCode) (ha : a < 2 ^ (aw + 1)) (hb : b < 2 ^ (aw + 1)) :
    decodeWord aw .opsel (launchWord aw c a b) = .ok (decodeLaunch c a b) := by
  have hstart : launchWord aw c a b / 2 ^ 2 % 2 ^ (aw + 1) = a := by
    rw [launchWord_div_four, Nat.add_mul_mod_self_left, Nat.mod_eq_of_lt ha]
  have hstop : launchWord aw c a b / 2 ^ (2 + (aw + 1)) = b := by
    rw [Nat.pow_add, ← Nat.div_div_eq_div_mul, launchWord_div_four, Nat.add_mul_div_left _ _ (Nat.two_pow_pos _),
      Nat.div_eq_of_lt ha, Nat.zero_add]
  rw [decodeWord_opsel_of_lt (launchWord_lt c ha hb), ofNat_launchWord, hstart, hstop]

/-- The fields the decoder reads from a number put that number on the wires again. -/
theorem launchWord_fields (aw w : Nat) :
    launchWord aw (BitVec.ofNat 2 w) (w / 2 ^ 2 % 2 ^ (aw + 1)) (w / 2 ^ (2 + (aw + 1))) = w := by
  rw [launchWord, Nat.pow_add 2 2, ← Nat.div_div_eq_div_mul, Nat.mod_add_div, BitVec.toNat_ofNat, Nat.mod_add_div]

/-- Of a number no wider than a launch's wires, the part above code and start fits the end's wires. -/
theorem div_lt_of_lt_launchWidth {w : Nat} (h : w < 2 ^ launchWidth aw) : w / 2 ^ (2 + (aw + 1)) < 2 ^ (aw + 1) := by
  rw [two_pow_launchWidth, ← Nat.mul_assoc, ← Nat.pow_add] at h
  exact Nat.div_lt_of_lt_mul h

end

/-- Settles O4: an instruction is what one of the two decoders reads, and each reads its own words back. -/
theorem decodeOfEncode : Obligations.DecodeOfEncode := by
  intro aw i hwf
  rcases exists_eq_decodeLaunch_or_decodeGroup i with ⟨c, a, b, rfl⟩ | ⟨b, rfl⟩
  · rw [wellFormed_decodeLaunch, Bool.and_eq_true, positionFits_iff, positionFits_iff] at hwf
    rw [encode_decodeLaunch]
    exact decodeWord_launchWord c hwf.1 hwf.2
  · rw [encode_decodeGroup]
    exact decodeWord_group_toNat aw b

/-- Settles O5, by the format: a word that decodes is narrow enough, and its fields make it up. -/
theorem encodeOfDecode : Obligations.EncodeOfDecode := by
  intro aw f w i h
  cases f with
  | group =>
    rcases Nat.lt_or_ge w (2 ^ 8) with hw | hw
    · rw [decodeWord_group_of_lt hw] at h
      cases h
      rw [encode_decodeGroup, BitVec.toNat_ofNat, Nat.mod_eq_of_lt hw]
      exact ⟨rfl, wellFormed_decodeGroup aw _⟩
    · rw [decodeWord_group_of_le hw] at h
      cases h
  | opsel =>
    rcases Nat.lt_or_ge w (2 ^ launchWidth aw) with hw | hw
    · rw [decodeWord_opsel_of_lt hw] at h
      cases h
      rw [encode_decodeLaunch, launchWord_fields, wellFormed_decodeLaunch, Bool.and_eq_true, positionFits_iff,
        positionFits_iff]
      exact ⟨rfl, Nat.mod_lt _ (Nat.two_pow_pos _), div_lt_of_lt_launchWidth hw⟩
    · rw [decodeWord_opsel_of_le hw] at h
      cases h

/-- Settles O1: the four codes compute, and there is no fifth. -/
theorem operationCodes : Obligations.OperationCodes :=
  ⟨fun _ _ => ⟨rfl, rfl, rfl, rfl⟩, by decide, by decide, by decide, by decide, opCode_cases⟩

/-- Settles O2, by the flag of the byte as a comparison. -/
theorem everyByteIsAGroup : Obligations.EveryByteIsAGroup := by
  intro b
  refine ⟨fun hlow => ?_, fun hhigh => ?_, fun aw => decodeWord_group_toNat aw b⟩
  · rw [decodeGroup_of_lt (by omega), payloadOf_eq_ofNat]
  · rw [decodeGroup_of_le hhigh, payloadOf_eq_ofNat]
    have hmod : b.toNat % 2 ^ 7 = (b.toNat - 0x80) % 2 ^ 7 := by omega
    exact congrArg Instr.groupCont (BitVec.eq_of_toNat_eq (by rw [BitVec.toNat_ofNat, BitVec.toNat_ofNat, hmod]))

/-- Settles O3: the words compute, each to its instruction. -/
theorem wordsDecode : Obligations.WordsDecode := by
  unfold Obligations.WordsDecode
  decide

/-- Settles O6: at each format's width the decoder turns from accepting to its one rejection. -/
theorem onlyWideWordsRejected : Obligations.OnlyWideWordsRejected := by
  intro aw w
  have hgroup : (decodeWord aw .group w = .error .groupTooWide ↔ 2 ^ 8 ≤ w) ∧
      decodeWord aw .group w ≠ .error .launchTooWide := by
    rcases Nat.lt_or_ge w (2 ^ 8) with hw | hw
    · simpa [decodeWord_group_of_lt hw] using hw
    · simpa [decodeWord_group_of_le hw] using hw
  have hopsel : (decodeWord aw .opsel w = .error .launchTooWide ↔ 2 ^ launchWidth aw ≤ w) ∧
      decodeWord aw .opsel w ≠ .error .groupTooWide := by
    rcases Nat.lt_or_ge w (2 ^ launchWidth aw) with hw | hw
    · simpa [decodeWord_opsel_of_lt hw] using hw
    · simpa [decodeWord_opsel_of_le hw] using hw
  exact ⟨hgroup.1, hopsel.1, hgroup.2, hopsel.2⟩

/-! ### The rows of the opcode table -/

theorem encode_matches_row (i : Instr) : Laws.RowMatch.Statement i := by
  cases i with
  | decodeU32 a b => exact Laws.RowMatch.decodeU32 a b
  | decodeI32 a b => exact Laws.RowMatch.decodeI32 a b
  | decodeU64 a b => exact Laws.RowMatch.decodeU64 a b
  | decodeI64 a b => exact Laws.RowMatch.decodeI64 a b
  | groupCont p => exact Laws.RowMatch.groupCont p
  | groupTerm p => exact Laws.RowMatch.groupTerm p

theorem rowOf_decodeLaunch (c : OpCode) (a b : Nat) : rowOf (decodeLaunch c a b) = rowOf (decodeLaunch c 0 0) := by
  rcases opCode_cases c with rfl | rfl | rfl | rfl <;> rfl

/-- Within a format the rows share their mask and differ in their pattern. -/
theorem mask_eq_and_rowOf_eq_iff {i j : Instr} (hf : (rowOf i).format = (rowOf j).format) :
    (rowOf i).mask = (rowOf j).mask ∧ (rowOf i = rowOf j ↔ (rowOf i).pattern = (rowOf j).pattern) := by
  cases i <;> cases j <;> simp [rowOf] at hf ⊢

/-- A word that matches one row of a format matches no other row of it. -/
theorem matches_row_iff {w : Nat} {i j : Instr} (hw : w &&& (rowOf i).mask = (rowOf i).pattern)
    (hf : (rowOf i).format = (rowOf j).format) : w &&& (rowOf j).mask = (rowOf j).pattern ↔ rowOf i = rowOf j := by
  obtain ⟨hmask, hrow⟩ := mask_eq_and_rowOf_eq_iff hf
  rw [hrow, ← hmask, hw]

/-- Settles O7: a byte, and a code, matches the row it decodes to, and so no other row of its format. -/
theorem tableRowsPartition : Obligations.TableRowsPartition := by
  constructor
  · intro b i hi
    obtain ⟨hformat, hmatch⟩ := encode_matches_row (decodeGroup b) 0
    rw [encode_decodeGroup] at hformat hmatch
    exact matches_row_iff hmatch (hformat.symm.trans hi.symm)
  · intro c a b i hi
    obtain ⟨hformat, hmatch⟩ := encode_matches_row (decodeLaunch c 0 0) 0
    rw [encode_decodeLaunch] at hformat hmatch
    have hword : launchWord 0 c 0 0 = c.toNat := by simp [launchWord]
    rw [hword] at hmatch
    rw [rowOf_decodeLaunch]
    exact matches_row_iff hmatch (hformat.symm.trans hi.symm)

/-! ### A pending WAIT (R64) -/

/-- Settles O42, by the step with WAIT pending. -/
theorem waitAction : Obligations.WaitAction := by
  intro s rest hi
  rw [step_wait hi]
  exact ⟨fun hp => if_pos hp, fun hp => if_neg hp⟩

end Sys2Proof.Machine
end

section
/-! The two kinds of group, one at a time: what each does from a scanning state, what the canonicality check passes, and
where the payload and the counters land (R70 to R82). -/

namespace Sys2Proof.Machine

/-! ### What a group does -/

section
variable {s t : State} {p : Payload}

theorem exec_groupCont (p : Payload) (s : State) : exec (.groupCont p) s = whileScanning s (accumulate p s) := rfl

theorem exec_groupTerm (p : Payload) (s : State) :
    exec (.groupTerm p) s = whileScanning s (terminate p (accumulate p s)) := rfl

theorem exec_groupCont_next : exec (.groupCont p) s = .next t ↔ s.phase = .scan ∧ t = accumulate p s := by
  rw [exec_groupCont, whileScanning_next]

theorem exec_groupTerm_next : exec (.groupTerm p) s = .next t ↔ s.phase = .scan ∧ t = terminate p (accumulate p s) := by
  rw [exec_groupTerm, whileScanning_next]

theorem whileScanning_of_not_scan (h : s.phase ≠ .scan) (t : State) : whileScanning s t = .fault .noDecoderStep :=
  if_neg h

/-- A group of either kind makes the register updates of R72 to R75. -/
theorem exec_decodeGroup_registers {b : Byte} (h : exec (decodeGroup b) s = .next t) :
    t.acc = (accumulate (payloadOf b) s).acc ∧ t.shift = (accumulate (payloadOf b) s).shift ∧
      t.groupCount = (accumulate (payloadOf b) s).groupCount := by
  rw [exec_decodeGroup, whileScanning_next] at h
  obtain ⟨-, rfl⟩ := h
  split
  · exact ⟨rfl, rfl, rfl⟩
  · obtain ⟨-, -, -, hacc, hshift, hcount, -⟩ := terminate_frame (payloadOf b) (accumulate (payloadOf b) s)
    exact ⟨hacc, hshift, hcount⟩

/-- A terminating group ends in DONE exactly if the canonicality check passes (R80). -/
theorem terminate_done_iff (p : Payload) (s : State) :
    (terminate p s).phase = .done ↔ fillOk s.op s.shift.toNat p = true := by
  rcases terminate_cases p s with ⟨hfill, e⟩ | ⟨hfill, e⟩ <;> simp [e, hfill]

/-- Where it does not pass, the group fails with OVERFLOW (R103). -/
theorem terminate_overflow (h : (terminate p s).phase ≠ .done) :
    (terminate p s).phase = .fail ∧ (terminate p s).err = .overflow := by
  rcases terminate_cases p s with ⟨-, e⟩ | ⟨-, e⟩
  · simp [e] at h
  · rw [e]; exact ⟨rfl, rfl⟩

/-- On success VALUE is the result of the check's SHIFT and payload (R82). -/
theorem terminate_value_of_done (h : (terminate p s).phase = .done) :
    (terminate p s).value = resultValue s.op s.acc s.shift.toNat p := by
  rcases terminate_cases p s with ⟨-, e⟩ | ⟨-, e⟩
  · rw [e]; rfl
  · simp [e] at h

end

/-- Settles O11: the group is `accumulate`. -/
theorem groupContEffect : Obligations.GroupContEffect := fun _ _ hp =>
  exec_groupCont_next.mpr ⟨hp, rfl⟩

/-- Settles O13: `accumulate` and the end of a terminating group write working registers and results only. -/
theorem groupsFrame : Obligations.GroupsFrame := by
  intro s t p
  rw [exec_groupCont_next, exec_groupTerm_next]
  constructor
  · rintro ⟨-, rfl⟩
    exact ⟨⟨rfl, rfl, rfl⟩, ⟨rfl, rfl, rfl⟩, rfl, rfl, rfl, rfl, rfl, fun _ => rfl⟩
  · rintro ⟨-, rfl⟩
    obtain ⟨hop, hend, -, -, -, -, haw, hmem, hinputs, hreply⟩ := terminate_frame p (accumulate p s)
    exact ⟨⟨haw, hmem, hreply⟩, hop, hend, hinputs, fun x => by rw [hmem, accumulate_mem]⟩

/-- Settles O14, by the guard both groups share and the decoder's own. -/
theorem noGroupOutsideScan : Obligations.NoGroupOutsideScan := fun _ _ hp =>
  ⟨whileScanning_of_not_scan hp _, whileScanning_of_not_scan hp _,
    fun hi => (step_nil hi).trans (decoderStep_of_not_scan hp)⟩

/-- Settles O12, by the two ends of the group: R80's check in its own words, and VALUE bit by bit. -/
theorem groupTermEffect : Obligations.GroupTermEffect := by
  intro s p hp
  refine ⟨_, exec_groupTerm_next.mpr ⟨hp, rfl⟩, ?_⟩
  obtain ⟨-, -, hpos, hacc, hshift, hcount, -⟩ := terminate_frame p (accumulate p s)
  refine ⟨hpos, hacc, hshift, hcount, ?_⟩
  intro S used pass
  have hcheck : fillOk (accumulate p s).op (accumulate p s).shift.toNat p = true ↔ used = 7 ∨ pass :=
    fillOk_iff s.op S p
  rcases terminate_cases p (accumulate p s) with ⟨hfill, e⟩ | ⟨hfill, e⟩
  · have hpass := hcheck.mp hfill
    rw [e]
    refine ⟨fun _ => ⟨rfl, rfl, rfl, by simp, rfl, fun j hj => ?_⟩, fun hmiss => absurd hpass hmiss⟩
    exact resultValue_testBit s.op _ S p hj
  · have hmiss : ¬(used = 7 ∨ pass) := mt hcheck.mpr (Bool.eq_false_iff.mp hfill)
    rw [e]
    exact ⟨fun hpass => absurd hpass hmiss, fun _ => ⟨rfl, rfl, rfl, by simp⟩⟩

/-! ### The step and the decoder -/

/-- Where the decoder reads a byte, its step is the execution of that byte's group (R70). -/
theorem decoderStep_of_read {s : State} (hp : s.phase = .scan) (he : s.pos ≠ s.endPos)
    (hc : s.groupCount.toNat ≠ maxGroups s.op) (hlt : s.pos < 2 ^ s.aw) :
    decoderStep s = exec (decodeGroup (s.mem.read s.pos)) s := by
  have hfetch : fetchGroup s = .ok (s.mem.read s.pos) := fetchGroup_ok.mpr ⟨hp, he, hc, hlt, rfl⟩
  rw [decoderStep, hfetch]

/-- Settles O20, by the step with each pending action. -/
theorem stepRunsDecoded : Obligations.StepRunsDecoded := by
  intro s rest
  refine ⟨fun hp he hc hlt => ⟨fun hi => ?_, fun hi => ?_, fun hi => ?_⟩, fun c a b hi => ?_⟩
  · rw [step_nil hi]
    exact decoderStep_of_read hp he hc hlt
  · rw [step_dec hi]
    exact decoderStep_of_read (s := { s with inputs := rest }) hp he hc hlt
  · rw [step_wait hi, if_pos hp]
    exact decoderStep_of_read hp he hc hlt
  · rw [step_launch hi]
    exact (exec_decodeLaunch c a b _).symm

/-! ### The canonicality check -/

/-- USED by the group's place (R77): all seven bits before the last possible group, there what the width leaves. -/
theorem usedBits_eq {c : OpCode} {g : Nat} (hg : g ≤ maxGroups c) :
    usedBits c (7 * g) = if g < maxGroups c then 7 else bits c - 7 * (maxGroups c - 1) := by
  unfold usedBits
  have := bits_eq c
  split <;> omega

/-- Settles O17, from USED by the group's place. -/
theorem overflowRegionSize : Obligations.OverflowRegionSize := by
  intro c g _ hg
  have hused := usedBits_eq hg
  refine ⟨rfl, fun hlt => ?_, fun hlast hb => ?_, fun hlast hb => ?_⟩
  · rw [if_pos hlt] at hused
    simp [overflowBits, hused]
  · have hM : maxGroups c = 5 := by simp [maxGroups, hb]
    rw [if_neg (by omega), hb, hM] at hused
    simp [overflowBits, hused]
  · have hM : maxGroups c = 10 := by simp [maxGroups, hb]
    rw [if_neg (by omega), hb, hM] at hused
    simp [overflowBits, hused]

/-- The payloads the check passes in the last possible group of each operation (R80). -/
theorem fillOk_last_iff : ∀ p : Payload,
    (fillOk 0b00#2 (7 * 5) p = true ↔ p.toNat ≤ 0x0f) ∧
    (fillOk 0b01#2 (7 * 5) p = true ↔ p.toNat ≤ 0x07 ∨ 0x78 ≤ p.toNat) ∧
    (fillOk 0b10#2 (7 * 10) p = true ↔ p.toNat = 0x00 ∨ p.toNat = 0x01) ∧
    (fillOk 0b11#2 (7 * 10) p = true ↔ p.toNat = 0x00 ∨ p.toNat = 0x7f) := by
  decide

/-- Settles O18: DONE is the check, which passes before the last possible group and there on the listed payloads. -/
theorem lastGroupPassList : Obligations.LastGroupPassList := by
  intro s p g hp hshift h1 hg
  refine ⟨_, exec_groupTerm_next.mpr ⟨hp, rfl⟩, ?_⟩
  have hS : (accumulate p s).shift.toNat = 7 * g := by
    have := maxGroups_le s.op
    rw [accumulate_shift, BitVec.toNat_add, hshift]
    change (7 * (g - 1) + 7) % 2 ^ 7 = 7 * g
    omega
  have hdone := terminate_done_iff p (accumulate p s)
  rw [hS, accumulate_op] at hdone
  rw [hdone]
  obtain ⟨hu32, hi32, hu64, hi64⟩ := fillOk_last_iff p
  refine ⟨fillOk_early p, fun hlast => ⟨fun hop => ?_, fun hop => ?_, fun hop => ?_, fun hop => ?_, fun hne => ?_⟩⟩
  · rw [hlast, hop]; exact hu32
  · rw [hlast, hop]; exact hi32
  · rw [hlast, hop]; exact hu64
  · rw [hlast, hop]; exact hi64
  · exact terminate_overflow hne

/-! ### Where the payload and the counters land -/

section
variable {s : State}

/-- While ACC is below `2^SHIFT` its bits from SHIFT up are zero (R29). -/
theorem WorkingInv.acc_getLsbD (h : WorkingInv s) {j : Nat} (hj : s.shift.toNat ≤ j) : s.acc.getLsbD j = false :=
  Nat.testBit_eq_false_of_lt (h.acc_below.trans_le (Nat.pow_le_pow_right (by decide) hj))

/-- The OR of R72, bit by bit: the payload from SHIFT up, ACC below it. -/
theorem WorkingInv.accumulate_acc_getLsbD (h : WorkingInv s) (hc : s.groupCount.toNat ≠ maxGroups s.op) (p : Payload)
    (j : Nat) : (Machine.accumulate p s).acc.getLsbD j =
      if s.shift.toNat ≤ j then p.getLsbD (j - s.shift.toNat) else s.acc.getLsbD j := by
  obtain ⟨hle, -, -⟩ := h.counters hc p
  rw [accumulate_acc, BitVec.getLsbD_or, BitVec.getLsbD_shiftLeft]
  split
  · rename_i hj
    rw [h.acc_getLsbD hj]
    by_cases hp : j - s.shift.toNat < 7
    · simp [hj, show j < 70 by omega, show j - s.shift.toNat < 70 by omega]
    · rw [BitVec.getLsbD_of_ge p _ (by omega)]
      simp [BitVec.getLsbD_setWidth, BitVec.getLsbD_of_ge p _ (Nat.not_lt.mp hp)]
  · rename_i hj
    simp [Nat.not_le.mp hj]

end

/-- Settles O15: with SHIFT at most 63 the OR neither meets a bit of ACC nor loses one of the payload. -/
theorem accumulationExact : Obligations.AccumulationExact := by
  intro s t b hinv hp hc hexec
  have hw := hinv.working (by simp [hp])
  obtain ⟨hacc, -, -⟩ := exec_decodeGroup_registers hexec
  obtain ⟨hle, -, -⟩ := hw.counters hc (payloadOf b)
  have hbit := hw.accumulate_acc_getLsbD hc (payloadOf b)
  rw [hacc]
  refine ⟨rfl, hle, fun hb => ?_, fun j hj _ => ⟨hw.acc_getLsbD hj, ?_⟩, fun j hj => ?_, ?_⟩
  · have := bits_eq s.op; have := hw.shift_eq; have := hw.count_le
    omega
  · rw [hbit, if_pos hj]
  · rw [hbit]
    split
    · rename_i hge
      rw [hw.acc_getLsbD hge, BitVec.getLsbD_of_ge _ _ (by omega)]
    · rfl
  · exact hw.acc hc (payloadOf b)

/-- Settles O16: a group's counters are the invariant's, and a failure before the read touches neither. -/
theorem countersExact : Obligations.CountersExact := by
  intro s t hinv hp hi hstep
  have hw := hinv.working (by simp [hp])
  rw [step_nil hi] at hstep
  constructor
  · rintro ⟨he, hc⟩
    rw [decoderStep_of_read hp he hc (hw.pos_inside he).2] at hstep
    obtain ⟨-, hshift, hcount⟩ := exec_decodeGroup_registers hstep
    obtain ⟨hle, hshift', hcount'⟩ := hw.counters hc (payloadOf (s.mem.read s.pos))
    have := hw.shift_eq
    rw [hshift, hcount, hshift', hcount']
    omega
  · intro hfail
    obtain ⟨-, -, rfl⟩ := decoderStep_next_iff.mp hstep
    by_cases he : s.pos = s.endPos
    · rw [scanStep_at_end he]
      exact ⟨rfl, rfl⟩
    · rw [scanStep_at_limit he (hfail.resolve_left he)]
      exact ⟨rfl, rfl⟩

/-- Settles O19: the accumulator ends at the new SHIFT, where the fill begins. -/
theorem signExtension : Obligations.SignExtension := by
  intro s t p hinv hp hc hexec hdone
  have hw := hinv.working (by simp [hp])
  obtain ⟨-, hshift, hcount⟩ := hw.counters hc p
  obtain ⟨-, rfl⟩ := exec_groupTerm_next.mp hexec
  obtain ⟨-, -, -, hacc', hshift', hcount', -⟩ := terminate_frame p (accumulate p s)
  rw [hacc', hshift', hcount']
  have hbits := bits_eq s.op; have hcur := hw.shift_eq; have hle := hw.count_le
  refine ⟨fun j hj => ?_, by omega⟩
  rw [terminate_value_of_done hdone, accumulate_op, resultValue_testBit _ _ _ _ hj]
  split
  · rename_i hlt
    rw [decide_eq_false (Nat.not_le.mpr hlt), Bool.and_false, Bool.or_false]
  · rename_i hge
    have hzero : (accumulate p s).acc.getLsbD j = false := by
      rw [hw.accumulate_acc_getLsbD hc p, if_pos (by omega), BitVec.getLsbD_of_ge p _ (by omega)]
    have hfill : (accumulate p s).shift.toNat < bits s.op := by omega
    rw [hzero, decide_eq_true hfill, decide_eq_true (Nat.not_lt.mp hge)]
    simp

end Sys2Proof.Machine
end

section
/-! The closed form R85, case by case, and the two ends of a terminating group as its results. -/

namespace Sys2Proof.Machine

/-! ### The terminator -/

@[simp] theorem terminatorIndex_nil : terminatorIndex [] = none := rfl

theorem terminatorIndex_cons_cont {b : Byte} (h : 128 ≤ b.toNat) (bs : List Byte) :
    terminatorIndex (b :: bs) = (terminatorIndex bs).map (· + 1) := if_neg (by omega)

theorem terminatorIndex_cons_term {b : Byte} (h : b.toNat < 128) (bs : List Byte) :
    terminatorIndex (b :: bs) = some 1 := if_pos h

/-- Continuation groups in front only move the terminator along. -/
theorem terminatorIndex_append {pre : List Byte} (h : allContinue pre) (bs : List Byte) :
    terminatorIndex (pre ++ bs) = (terminatorIndex bs).map (· + pre.length) := by
  induction pre with
  | nil => simp
  | cons b pre ih =>
    rw [List.cons_append, terminatorIndex_cons_cont (h b List.mem_cons_self),
      ih fun x hx => h x (List.mem_cons_of_mem b hx), Option.map_map]
    rfl

/-- The terminator's place counts from 1 and lies within the bytes. -/
theorem terminatorIndex_bounds {bs : List Byte} {k : Nat} (h : terminatorIndex bs = some k) :
    1 ≤ k ∧ k ≤ bs.length := by
  induction bs generalizing k with
  | nil => cases h
  | cons b bs ih =>
    rcases Nat.lt_or_ge b.toNat 128 with hb | hb
    · rw [terminatorIndex_cons_term hb] at h
      cases h
      exact ⟨Nat.le_refl 1, Nat.succ_pos _⟩
    · rw [terminatorIndex_cons_cont hb, Option.map_eq_some_iff] at h
      obtain ⟨i, hi, rfl⟩ := h
      obtain ⟨-, hle⟩ := ih hi
      exact ⟨Nat.succ_pos i, Nat.succ_le_succ hle⟩

/-! ### The closed form by its cases -/

section
variable {n k : Nat} {sgn : Bool} {bs : List Byte}

theorem decodeSteps_of_some (h : terminatorIndex (bs.take (groupLimit n)) = some k) : decodeSteps n bs = k := by
  simp [decodeSteps, h]

theorem decodeSteps_of_none (h : terminatorIndex (bs.take (groupLimit n)) = none) :
    decodeSteps n bs = min bs.length (groupLimit n) + 1 := by
  simp only [decodeSteps, h]
  split <;> omega

theorem decodeSpan_truncated (h : terminatorIndex (bs.take (groupLimit n)) = none) (hl : bs.length ≤ groupLimit n) :
    decodeSpan n sgn bs = .failed .truncated := by
  simp [decodeSpan, h, hl]

theorem decodeSpan_tooLong (h : terminatorIndex (bs.take (groupLimit n)) = none) (hl : groupLimit n < bs.length) :
    decodeSpan n sgn bs = .failed .tooLong := by
  simp [decodeSpan, h, hl]

/-- The fill of the last possible group is wrong (R103). -/
def OverflowsAt (n : Nat) (sgn : Bool) (bs : List Byte) (k : Nat) : Prop :=
  k = groupLimit n ∧ fillMatches n sgn (payloadNat (bs.getD (k - 1) 0)) = false

/-- The bit pattern of R81 and R82: the assembled payloads `u` of `k` groups in `n` bits, with the sign `p` has above
them in a short signed encoding. -/
def extendedValue (n : Nat) (sgn : Bool) (k u p : Nat) : Nat :=
  if sgn = true ∧ 7 * k < n ∧ p.testBit 6 = true then u % 2 ^ n + 2 ^ n - 2 ^ (7 * k) else u % 2 ^ n

theorem decodeSpan_overflow (h : terminatorIndex (bs.take (groupLimit n)) = some k) (ho : OverflowsAt n sgn bs k) :
    decodeSpan n sgn bs = .failed .overflow := by
  simp only [decodeSpan, h]
  exact if_pos ho

theorem decodeSpan_ok (h : terminatorIndex (bs.take (groupLimit n)) = some k) (ho : ¬OverflowsAt n sgn bs k) :
    decodeSpan n sgn bs =
      .ok k (extendedValue n sgn k (assemble (bs.take k)) (payloadNat (bs.getD (k - 1) 0))) := by
  simp only [decodeSpan, h]
  refine (if_neg ho).trans ?_
  rw [extendedValue]
  split <;> rfl

end

/-! ### The delivered value as a number -/

theorem extMask_toNat {c : OpCode} {w sh : Nat} (hw : bits c = w) (p : Payload) :
    (extMask w c sh p).toNat =
      if opSigned c = true ∧ sh < bits c ∧ p.toNat.testBit 6 = true then 2 ^ w - 2 ^ sh else 0 := by
  have hcond : needsExt c sh p = true ↔ opSigned c = true ∧ sh < bits c ∧ p.toNat.testBit 6 = true := by
    simp [needsExt, BitVec.testBit_toNat, and_assoc]
  unfold extMask
  split
  · rename_i h
    have ⟨_, hlt, _⟩ := hcond.mp h
    rw [if_pos (hcond.mp h), ones_toNat (hw ▸ hlt)]
  · rename_i h
    rw [if_neg (mt hcond.mpr h)]; rfl

/-- A number of `sh` bits with ones from `sh` up to `w` above it. -/
theorem or_high_ones {a sh w : Nat} (ha : a < 2 ^ sh) (hs : sh ≤ w) :
    a ||| (2 ^ w - 2 ^ sh) = a + 2 ^ w - 2 ^ sh := by
  have hle : 2 ^ sh ≤ 2 ^ w := Nat.pow_le_pow_right (by omega) hs
  have hones : 2 ^ w - 2 ^ sh = 2 ^ sh * (2 ^ (w - sh) - 1) := by
    rw [Nat.mul_sub, mul_one, ← Nat.pow_add, Nat.add_sub_cancel' hs]
  rw [Nat.add_sub_assoc hle, hones, Nat.or_comm, ← Nat.two_pow_add_eq_or_of_lt ha, Nat.add_comm]

theorem setWidth_or_extMask_toNat {c : OpCode} {w k : Nat} {a : Acc} (hw : bits c = w)
    (ha : a.toNat < 2 ^ (7 * k)) (p : Payload) :
    (a.setWidth w ||| extMask w c (7 * k) p).toNat = extendedValue (bits c) (opSigned c) k a.toNat p.toNat := by
  rw [BitVec.toNat_or, extMask_toNat hw, BitVec.toNat_setWidth, extendedValue, hw]
  split
  · rename_i h
    obtain ⟨-, hlt, -⟩ := h
    have hle : 2 ^ (7 * k) ≤ 2 ^ w := Nat.pow_le_pow_right (by omega) hlt.le
    rw [Nat.mod_eq_of_lt (ha.trans_le hle), or_high_ones ha hlt.le]
  · rw [Nat.or_zero]

/-- The delivered value is the accumulator with the sign above it (R81, R82). -/
theorem valueUnsigned_resultValue {c : OpCode} {a : Acc} {k : Nat} (ha : a.toNat < 2 ^ (7 * k)) (p : Payload) :
    valueUnsigned (resultValue c a (7 * k) p) = extendedValue (bits c) (opSigned c) k a.toNat p.toNat := by
  unfold resultValue
  cases hw : opWide c
  · exact setWidth_or_extMask_toNat (by simp [bits, hw]) ha p
  · exact setWidth_or_extMask_toNat (by simp [bits, hw]) ha p

/-! ### The ends of a terminating group -/

/-- After `k` groups the check of R80 is the closed form's. -/
theorem fillOk_eq_false_iff {c : OpCode} {k : Nat} (hk : k ≤ maxGroups c) (p : Payload) :
    fillOk c (7 * k) p = false ↔ k = maxGroups c ∧ fillMatches (bits c) (opSigned c) p.toNat = false := by
  rcases Nat.lt_or_eq_of_le hk with hlt | rfl
  · simp [fillOk_early p hlt, hlt.ne]
  · simp [fillOk_last]

/-- A group that terminates the bytes `bs`, with their payloads in ACC, ends as the closed form says. -/
theorem terminate_delivers {s : State} {bs : List Byte} {p : Payload} (hw : WorkingInv s)
    (hterm : terminatorIndex (bs.take (maxGroups s.op)) = some s.groupCount.toNat)
    (hacc : s.acc.toNat = assemble (bs.take s.groupCount.toNat))
    (hp : payloadNat (bs.getD (s.groupCount.toNat - 1) 0) = p.toNat) :
    Delivers (terminate p s) (decodeSpan (bits s.op) (opSigned s.op) bs) := by
  have hover : fillOk s.op s.shift.toNat p = false ↔
      OverflowsAt (bits s.op) (opSigned s.op) bs s.groupCount.toNat := by
    rw [hw.shift_eq, fillOk_eq_false_iff hw.count_le, OverflowsAt, hp]; rfl
  rcases terminate_cases p s with ⟨hfill, e⟩ | ⟨hfill, e⟩ <;> rw [e]
  · rw [decodeSpan_ok hterm (mt hover.mpr (by simp [hfill])), ← hacc, hp]
    have hcount : s.groupCount.toNat < 2 ^ 5 := s.groupCount.isLt.trans (by decide)
    refine ⟨rfl, rfl, ?_, by simp, ?_⟩
    · rw [succeed_len, BitVec.toNat_setWidth, Nat.mod_eq_of_lt hcount]
    · rw [succeed_value, hw.shift_eq]
      exact valueUnsigned_resultValue (hw.shift_eq ▸ hw.acc_below) p
  · rw [decodeSpan_overflow hterm (hover.mp hfill)]
    exact ⟨rfl, rfl, rfl, by simp⟩

end Sys2Proof.Machine
end

section
/-! R85, by induction on the decoder steps still to come: in the middle of a scan the closed form of the whole span says
when the scan ends and how, and a continuation group changes none of that. -/

namespace Sys2Proof.Machine

/-- The middle of a scan: every byte read so far was a continuation group and ACC holds their payloads (R28, R29). -/
structure Reading (s : State) : Prop extends Scanning s where
  scanned : ScanInv s

/-- The bytes of the running operation's span, the ones already read included (R28). -/
def spanOf (s : State) : List Byte := spanBytes s.mem (s.pos - s.groupCount.toNat) s.endPos

/-- The closed form's number of decoder steps for the running operation. -/
def stepsOf (s : State) : Nat := decodeSteps (bits s.op) (spanOf s)

/-- The running operation, in the state `s` of its scan, ends in `t` as the closed form says. -/
structure EndsAs (s t : State) : Prop where
  delivers : Delivers t (decodeSpan (bits s.op) (opSigned s.op) (spanOf s))
  outside : SameOutside s t
  op_eq : t.op = s.op
  count_le : t.groupCount.toNat ≤ maxGroups s.op

theorem Delivers.ended {t : State} {r : SpanResult} (h : Delivers t r) : t.phase = .done ∨ t.phase = .fail := by
  cases r with
  | ok k v => exact .inl h.1
  | failed c => exact .inr h.1

theorem Delivers.phase_ne_scan {t : State} {r : SpanResult} (h : Delivers t r) : t.phase ≠ .scan := by
  rcases h.ended with hp | hp <;> simp [hp]

theorem failWith_delivers (c : Cause) (s : State) : Delivers (failWith c s) (.failed c) :=
  ⟨rfl, rfl, rfl, by simp⟩

theorem failWith_sameOutside (c : Cause) (s : State) : SameOutside s (failWith c s) := ⟨rfl, rfl, rfl⟩

/-- A span falls into two at any position in it. -/
theorem spanBytes_append (m : Memory) {a b c : Nat} (hab : a ≤ b) (hbc : b ≤ c) :
    spanBytes m a c = spanBytes m a b ++ spanBytes m b c := by
  have hb : b = a + (b - a) := by omega
  have hlen : c - a = (b - a) + (c - b) := by omega
  rw [spanBytes, spanBytes, spanBytes, ← List.map_append, hlen, ← List.range'_append_1, ← hb]

section
variable {s : State}

/-! ### The span of the running operation -/

theorem WorkingInv.spanOf_length (h : WorkingInv s) :
    (spanOf s).length = s.groupCount.toNat + (s.endPos - s.pos) := by
  have := h.start_nonneg; have := h.pos_le_end
  rw [spanOf, spanBytes_length]
  omega

/-- A group moves POS and GROUPCOUNT together, so the span's start stays. -/
theorem WorkingInv.spanOf_accumulate (h : WorkingInv s) (hc : s.groupCount.toNat ≠ maxGroups s.op) (p : Payload) :
    spanOf (Machine.accumulate p s) = spanOf s := by
  obtain ⟨-, -, hcount⟩ := h.counters hc p
  rw [spanOf, hcount, accumulate_pos, Nat.add_sub_add_right]
  rfl

/-- The span is what has been read, then what is ahead. -/
theorem WorkingInv.spanOf_eq (h : WorkingInv s) :
    spanOf s = spanBytes s.mem (s.pos - s.groupCount.toNat) s.pos ++ spanBytes s.mem s.pos s.endPos :=
  spanBytes_append s.mem (Nat.sub_le _ _) h.pos_le_end

theorem WorkingInv.read_length (h : WorkingInv s) :
    (spanBytes s.mem (s.pos - s.groupCount.toNat) s.pos).length = s.groupCount.toNat := by
  rw [spanBytes_length, Nat.sub_sub_self h.start_nonneg]

/-- A terminator, if there is one, is among the bytes ahead. -/
theorem Reading.terminatorIndex_eq (h : Reading s) :
    terminatorIndex ((spanOf s).take (maxGroups s.op)) =
      (terminatorIndex (bytesAhead s)).map (· + s.groupCount.toNat) := by
  have hread := h.working.read_length
  rw [h.working.spanOf_eq, List.take_append, List.take_of_length_le (by rw [hread]; exact h.working.count_le),
    terminatorIndex_append h.scanned.continues, hread]
  rfl

/-- The byte at POS comes in the span right after those read. -/
theorem WorkingInv.spanOf_next (h : WorkingInv s) (he : s.pos ≠ s.endPos) :
    (spanOf s).take (s.groupCount.toNat + 1) =
      spanBytes s.mem (s.pos - s.groupCount.toNat) s.pos ++ [s.mem.read s.pos] ∧
    (spanOf s).getD s.groupCount.toNat 0 = s.mem.read s.pos := by
  have hread := h.read_length
  rw [h.spanOf_eq, spanBytes_cons s.mem (h.pos_inside he).1]
  constructor
  · rw [List.take_append, hread, List.take_of_length_le (by omega), Nat.add_sub_cancel_left]
    rfl
  · rw [List.getD_append_right _ _ _ _ hread.le, hread, Nat.sub_self]
    rfl

/-- A terminating group at POS is the terminator. -/
theorem Reading.terminatorIndex_of_term (h : Reading s) (he : s.pos ≠ s.endPos)
    (hc : s.groupCount.toNat ≠ maxGroups s.op) (hb : contFlag (s.mem.read s.pos) = false) :
    terminatorIndex ((spanOf s).take (maxGroups s.op)) = some (s.groupCount.toNat + 1) := by
  have hlt : (s.mem.read s.pos).toNat < 128 := by simpa [contFlag_eq] using hb
  rw [h.terminatorIndex_eq, h.working.bytesAhead_cons he hc (payloadOf (s.mem.read s.pos)),
    terminatorIndex_cons_term hlt, Option.map_some, Nat.add_comm]

/-- With no byte ahead there is no terminator in reach. -/
theorem Reading.no_terminator (h : Reading s) (hb : bytesAhead s = []) :
    terminatorIndex ((spanOf s).take (maxGroups s.op)) = none := by
  rw [h.terminatorIndex_eq, hb]; rfl

/-- A scan in progress has a decoder step still to come. -/
theorem Reading.count_lt_stepsOf (h : Reading s) : s.groupCount.toNat < stepsOf s := by
  have hterm := h.terminatorIndex_eq
  cases hk : terminatorIndex (bytesAhead s) with
  | none =>
    rw [hk] at hterm
    have := h.working.spanOf_length; have := h.working.count_le
    rw [stepsOf, decodeSteps_of_none hterm]
    change _ < min _ (maxGroups s.op) + 1
    omega
  | some k =>
    rw [hk] at hterm
    have hsteps : stepsOf s = k + s.groupCount.toNat := decodeSteps_of_some hterm
    have := (terminatorIndex_bounds hk).1
    omega

/-- The closed form takes at most `MAX_GROUPS + 1` steps (R83). -/
theorem decodeSteps_le (n : Nat) (bs : List Byte) : decodeSteps n bs ≤ groupLimit n + 1 := by
  cases h : terminatorIndex (bs.take (groupLimit n)) with
  | none => rw [decodeSteps_of_none h]; omega
  | some k =>
    have := (terminatorIndex_bounds h).2
    rw [List.length_take] at this
    rw [decodeSteps_of_some h]
    omega

theorem stepsOf_le (s : State) : stepsOf s ≤ maxGroups s.op + 1 := decodeSteps_le (bits s.op) (spanOf s)

/-! ### One decoder step against the closed form -/

/-- At the end of the span (R101). -/
theorem Reading.ends_truncated (h : Reading s) (he : s.pos = s.endPos) :
    stepsOf s = s.groupCount.toNat + 1 ∧ EndsAs s (scanStep s) := by
  have hterm := h.no_terminator (by simp [bytesAhead, he, spanBytes])
  have hlen := h.working.spanOf_length
  have hle : (spanOf s).length ≤ groupLimit (bits s.op) := by
    have : s.groupCount.toNat ≤ groupLimit (bits s.op) := h.working.count_le
    omega
  constructor
  · rw [stepsOf, decodeSteps_of_none hterm]
    omega
  · rw [scanStep_at_end he]
    exact ⟨decodeSpan_truncated hterm hle ▸ failWith_delivers .truncated s, failWith_sameOutside .truncated s, rfl,
      h.working.count_le⟩

/-- At a byte after MAX_GROUPS groups (R102). -/
theorem Reading.ends_tooLong (h : Reading s) (he : s.pos ≠ s.endPos) (hc : s.groupCount.toNat = maxGroups s.op) :
    stepsOf s = s.groupCount.toNat + 1 ∧ EndsAs s (scanStep s) := by
  have hterm := h.no_terminator (by simp [bytesAhead, groupsLeft, hc])
  have hlen := h.working.spanOf_length
  have hlt : groupLimit (bits s.op) < (spanOf s).length := by
    have : s.groupCount.toNat = groupLimit (bits s.op) := hc
    have := h.working.pos_le_end
    omega
  constructor
  · rw [stepsOf, decodeSteps_of_none hterm, Nat.min_eq_right hlt.le, hc]
    rfl
  · rw [scanStep_at_limit he hc]
    exact ⟨decodeSpan_tooLong hterm hlt ▸ failWith_delivers .tooLong s, failWith_sameOutside .tooLong s, rfl,
      h.working.count_le⟩

/-- At a terminating group (R76). -/
theorem Reading.ends_terminated (h : Reading s) (he : s.pos ≠ s.endPos) (hc : s.groupCount.toNat ≠ maxGroups s.op)
    (hb : contFlag (s.mem.read s.pos) = false) :
    stepsOf s = s.groupCount.toNat + 1 ∧ EndsAs s (scanStep s) := by
  set p := payloadOf (s.mem.read s.pos) with hpdef
  obtain ⟨-, -, hcount⟩ := h.working.counters hc p
  obtain ⟨hop, -, -, -, -, hcount', haw, hmem, -, hreply⟩ := terminate_frame p (accumulate p s)
  obtain ⟨htake, hlast⟩ := h.working.spanOf_next he
  have hterm := h.terminatorIndex_of_term he hc hb
  have hw := h.working.accumulate he hc p
  refine ⟨decodeSteps_of_some hterm, ?_⟩
  rw [scanStep_term he hc hb, ← hpdef]
  refine ⟨?_, ⟨haw, hmem, hreply⟩, hop, hcount' ▸ hw.count_le⟩
  refine terminate_delivers (bs := spanOf s) hw ?_ ?_ ?_
  · rw [hcount]; exact hterm
  · rw [hcount, htake, assemble_append, h.working.read_length, h.working.acc hc p, h.scanned.acc_eq,
      h.working.shift_eq, hpdef, payloadOf_toNat]
  · rw [hcount, Nat.add_sub_cancel, hlast, hpdef, payloadOf_toNat]

/-- At a continuation group (R75): the scan goes on, towards the same end. -/
theorem Reading.continues (h : Reading s) (he : s.pos ≠ s.endPos) (hc : s.groupCount.toNat ≠ maxGroups s.op)
    (hb : contFlag (s.mem.read s.pos) = true) :
    Reading (scanStep s) ∧ (scanStep s).groupCount.toNat = s.groupCount.toNat + 1 ∧ stepsOf (scanStep s) = stepsOf s ∧
      ∀ t, EndsAs (scanStep s) t → EndsAs s t := by
  set p := payloadOf (s.mem.read s.pos) with hpdef
  obtain ⟨-, -, hcount⟩ := h.working.counters hc p
  have hspan := h.working.spanOf_accumulate hc p
  rw [scanStep_cont he hc hb, ← hpdef]
  refine ⟨⟨h.toScanning.accumulate he hc p, h.scanned.accumulate h.working hc hb⟩, hcount, ?_, fun t ht => ?_⟩
  · rw [stepsOf, hspan]; rfl
  · have hdel := ht.delivers
    rw [hspan] at hdel
    exact ⟨hdel, ht.outside, ht.op_eq, ht.count_le⟩

/-- One decoder step of a scan: the closed form's last one, or one that leaves the scan in progress. -/
theorem Reading.scanStep_cases (h : Reading s) :
    (stepsOf s = s.groupCount.toNat + 1 ∧ EndsAs s (scanStep s)) ∨
    (Reading (scanStep s) ∧ (scanStep s).groupCount.toNat = s.groupCount.toNat + 1 ∧ stepsOf (scanStep s) = stepsOf s ∧
      ∀ t, EndsAs (scanStep s) t → EndsAs s t) := by
  by_cases he : s.pos = s.endPos
  · exact .inl (h.ends_truncated he)
  by_cases hc : s.groupCount.toNat = maxGroups s.op
  · exact .inl (h.ends_tooLong he hc)
  cases hb : contFlag (s.mem.read s.pos) with
  | true => exact .inr (h.continues he hc hb)
  | false => exact .inl (h.ends_terminated he hc hb)

/-! ### The rest of a scan -/

/-- From the middle of a scan, the steps that the closed form has left keep it scanning until the last one ends it. -/
theorem Reading.scanToEnd_cases (h : Reading s) {n : Nat} (hn : s.groupCount.toNat + n = stepsOf s) :
    (∀ j, j < n → ∃ u, scanToEnd j s = .next u ∧ u.phase = .scan) ∧
      ∃ t, scanToEnd n s = .next t ∧ EndsAs s t := by
  induction n generalizing s with
  | zero => exact absurd h.count_lt_stepsOf (by omega)
  | succ n ih =>
    rw [h.scanToEnd_succ]
    rcases h.scanStep_cases with ⟨hlast, hend⟩ | ⟨hread, hcount, hsteps, hends⟩
    · obtain rfl : n = 0 := by omega
      refine ⟨fun j hj => ?_, _, rfl, hend⟩
      obtain rfl : j = 0 := by omega
      exact ⟨s, rfl, h.phase_eq⟩
    · obtain ⟨hbefore, t, ht, hend⟩ := ih hread (by omega)
      refine ⟨fun j hj => ?_, t, ht, hends t hend⟩
      cases j with
      | zero => exact ⟨s, rfl, h.phase_eq⟩
      | succ j =>
        rw [h.scanToEnd_succ]
        exact hbefore j (by omega)

/-- A launch begins a scan of the whole span. -/
theorem startScan_reading {c : OpCode} {a b : Nat} (hi : s.inputs = []) (h : a ≤ b) (hb : b ≤ 2 ^ s.aw) :
    Reading (startScan c a b s) :=
  ⟨startScan_scanning hi h hb, startScan_scanInv c a b s⟩

theorem Launchable.step_launch_eq {a b : Nat} (hl : Launchable s a b) (c : OpCode) :
    step { s with inputs := [.launch c a b] } = .next (startScan c a b { s with inputs := [] }) := by
  obtain ⟨hphase, hspan, hend⟩ := hl
  rw [step_launch rfl]
  exact launch_next.mpr ⟨hphase, hspan, hend, rfl⟩

/-- Within a scan that meets the invariant the working part and the scanning part of it make up `Reading`. -/
theorem MachineInv.reading (h : MachineInv s) (hp : s.phase = .scan) (hi : s.inputs = []) : Reading s :=
  ⟨⟨hp, hi, h.working (by simp [hp])⟩, h.scanning hp⟩

/-- Eleven decoder steps suffice for the scan a launch begins (R83). -/
theorem EndsAs.of_launch {t₀ t : State} (ht : scanToEnd (stepsOf t₀) t₀ = .next t) (hend : EndsAs t₀ t) :
    scanToEnd 11 t₀ = .next t :=
  scanToEnd_stable ht hend.delivers.phase_ne_scan ((stepsOf_le t₀).trans (Nat.succ_le_succ (maxGroups_le t₀.op)))

end

/-- Settles O29: the launch begins the scan of the whole span, whose steps the closed form counts. -/
theorem operationMeetsClosedForm : Obligations.OperationMeetsClosedForm := by
  intro s c a b hl
  have ⟨_, hspan, hend⟩ := hl
  set t₀ := startScan c a b { s with inputs := [] }
  have hread : Reading t₀ := startScan_reading rfl hspan hend
  obtain ⟨hbefore, t, ht, hend⟩ := hread.scanToEnd_cases (Nat.zero_add (stepsOf t₀))
  refine ⟨t₀, t, hl.step_launch_eq c, hbefore, ht, ?_, hend.delivers, hend.outside⟩
  rw [hl.operate_eq]
  exact hend.of_launch ht

/-- Settles O25: the closed form's steps that are left end the scan, and they are no more than R83 allows. -/
theorem scanEnds : Obligations.ScanEnds := by
  intro s hinv hp hi
  have hread := hinv.reading hp hi
  have hlt := hread.count_lt_stepsOf
  obtain ⟨-, t, ht, hend⟩ := hread.scanToEnd_cases (Nat.add_sub_cancel' hlt.le)
  have hle := stepsOf_le s
  exact ⟨t, scanToEnd_stable ht hend.delivers.phase_ne_scan (by omega), hend.delivers.ended, hend.count_le⟩

end Sys2Proof.Machine
end

section
/-! R86 to R90, from the closed form: what VALUE reads as and what the encoded number is are equal modulo `2^BITS`, so
they are equal where the number is in range; and it is in range exactly where the last group's fill is right. -/

namespace Sys2Proof.Machine

/-! ### Ranges of integers -/

section
variable {n m : Nat} {sgn : Bool} {v w : Int}

theorem inRange_true : inRange n true v = true ↔ -(2 ^ (n - 1) : Int) ≤ v ∧ v < 2 ^ (n - 1) := by simp [inRange]

theorem inRange_false : inRange n false v = true ↔ 0 ≤ v ∧ v < 2 ^ n := by simp [inRange]

theorem two_mul_two_pow_pred (hn : 0 < n) : 2 * (2 : Int) ^ (n - 1) = 2 ^ n := by
  rw [← pow_succ', Nat.sub_add_cancel hn]

/-- A range of `n` bits holds one number of each residue modulo `2^n`. -/
theorem eq_of_inRange (hn : 0 < n) (hv : inRange n sgn v = true) (hw : inRange n sgn w = true)
    (h : v ≡ w [ZMOD 2 ^ n]) : v = w := by
  have hlt : |w - v| < 2 ^ n := by
    rw [abs_lt]
    cases sgn with
    | false => rw [inRange_false] at hv hw; omega
    | true => rw [inRange_true] at hv hw; have := two_mul_two_pow_pred hn; omega
  have := Int.eq_zero_of_abs_lt_dvd h.dvd hlt
  omega

theorem inRange_mono (h : m ≤ n) (hv : inRange m sgn v = true) : inRange n sgn v = true := by
  cases sgn with
  | false =>
    rw [inRange_false] at hv ⊢
    have : (2 : Int) ^ m ≤ 2 ^ n := pow_le_pow_right₀ (by decide) h
    omega
  | true =>
    rw [inRange_true] at hv ⊢
    have : (2 : Int) ^ (m - 1) ≤ 2 ^ (n - 1) := pow_le_pow_right₀ (by decide) (by omega)
    omega

/-- `n` low bits under a number do not decide whether the whole is in range. -/
theorem inRange_low_add {low : Int} (hm : 0 < m) (h0 : 0 ≤ low) (hlow : low < 2 ^ n) :
    inRange (n + m) sgn (low + v * 2 ^ n) = inRange m sgn v := by
  have hpos : (0 : Int) < 2 ^ n := by positivity
  have hdiv : (low + v * 2 ^ n) / 2 ^ n = v := by
    rw [Int.add_mul_ediv_right _ _ hpos.ne', Int.ediv_eq_zero_of_lt h0 hlow, zero_add]
  have hle (x : Int) : x * 2 ^ n ≤ low + v * 2 ^ n ↔ x ≤ v := by rw [← Int.le_ediv_iff_mul_le hpos, hdiv]
  have hlt (x : Int) : low + v * 2 ^ n < x * 2 ^ n ↔ v < x := by rw [← Int.ediv_lt_iff_lt_mul hpos, hdiv]
  rw [Bool.eq_iff_iff]
  cases sgn with
  | false => rw [inRange_false, inRange_false, ← hle, ← hlt, zero_mul, ← pow_add, Nat.add_comm m]
  | true =>
    rw [inRange_true, inRange_true, ← hle, ← hlt, neg_mul, ← pow_add, Nat.add_comm (m - 1),
      ← Nat.add_sub_assoc hm]

end

/-! ### The encoded number -/

/-- A payload as a number of seven bits (R86 for one group). -/
def payloadRead (sgn : Bool) (p : Nat) : Int := p - if sgn && p.testBit 6 then 2 ^ 7 else 0

/-- The fill of the last possible group is right exactly if its payload is in the range of the bits it has within the
width (R80). -/
theorem fillMatches_eq : ∀ (c : OpCode) (p : Payload), fillMatches (bits c) (opSigned c) p.toNat =
    inRange (bits c - 7 * (maxGroups c - 1)) (opSigned c) (payloadRead (opSigned c) p.toNat) := by
  decide

theorem inRange_payloadRead : ∀ (sgn : Bool) (p : Payload), inRange 7 sgn (payloadRead sgn p.toNat) = true := by
  decide

section
variable {bs : List Byte} {k : Nat}

theorem take_succ_of_lt (hk : k < bs.length) : bs.take (k + 1) = bs.take k ++ [bs.getD k 0] := by
  rw [List.take_succ_eq_append_getElem hk, List.getD_eq_getElem _ _ hk]

/-- The encoded number is the last payload, read by its sign, above the others. -/
theorem encodedValue_succ (sgn : Bool) (hk : k < bs.length) : encodedValue sgn bs (k + 1) =
    assemble (bs.take k) + payloadRead sgn (payloadNat (bs.getD k 0)) * 2 ^ (7 * k) := by
  rw [encodedValue, payloadRead, Nat.add_sub_cancel, take_succ_of_lt hk, assemble_append, List.length_take,
    Nat.min_eq_left hk.le]
  push_cast
  split <;> ring

/-- Within `n` bits that the last group reaches, only its payload decides whether the encoded number fits. -/
theorem inRange_encodedValue (sgn : Bool) (hk : k < bs.length) {n : Nat} (hn : 7 * k < n) :
    inRange n sgn (encodedValue sgn bs (k + 1)) =
      inRange (n - 7 * k) sgn (payloadRead sgn (payloadNat (bs.getD k 0))) := by
  have hlow : (assemble (bs.take k) : Int) < 2 ^ (7 * k) := by
    have := assemble_lt (bs.take k)
    rw [List.length_take, Nat.min_eq_left hk.le] at this
    exact_mod_cast this
  rw [encodedValue_succ sgn hk]
  conv_lhs => rw [← Nat.add_sub_cancel' hn.le]
  exact inRange_low_add (by omega) (Int.natCast_nonneg _) hlow

/-- `k` groups encode a number of `7k` bits. -/
theorem encodedValue_inRange (sgn : Bool) (h1 : 1 ≤ k) (hk : k ≤ bs.length) :
    inRange (7 * k) sgn (encodedValue sgn bs k) = true := by
  obtain ⟨j, rfl⟩ : ∃ j, k = j + 1 := ⟨k - 1, by omega⟩
  rw [inRange_encodedValue sgn hk (by omega), show 7 * (j + 1) - 7 * j = 7 by omega, ← payloadOf_toNat]
  exact inRange_payloadRead sgn _

/-- The last possible group overflows exactly if the encoded number is out of range (R86). -/
theorem overflowsAt_iff (c : OpCode) (h1 : 1 ≤ k) (hk : k ≤ bs.length) (hM : k ≤ maxGroups c) :
    OverflowsAt (bits c) (opSigned c) bs k ↔
      inRange (bits c) (opSigned c) (encodedValue (opSigned c) bs k) = false := by
  have hbits := bits_eq c
  rcases Nat.lt_or_eq_of_le hM with hlt | rfl
  · have hin := inRange_mono (n := bits c) (by omega) (encodedValue_inRange (opSigned c) h1 hk)
    have hne : k ≠ groupLimit (bits c) := hlt.ne
    simp [OverflowsAt, hin, hne]
  · obtain ⟨j, hj⟩ : ∃ j, maxGroups c = j + 1 := ⟨maxGroups c - 1, by omega⟩
    have hfill := fillMatches_eq c (payloadOf (bs.getD j 0))
    rw [payloadOf_toNat, hj, Nat.add_sub_cancel] at hfill
    rw [OverflowsAt, hj, Nat.add_sub_cancel, hfill, inRange_encodedValue _ (by omega) (by omega)]
    exact and_iff_right hj.symm

end

/-! ### What VALUE reads as -/

/-- The sign of R81 is what the encoded number subtracts, modulo the width. -/
theorem extendedValue_modEq (n : Nat) (sgn : Bool) (k u p : Nat) :
    (extendedValue n sgn k u p : Int) ≡ u - (if sgn && p.testBit 6 then 2 ^ (7 * k) else 0) [ZMOD 2 ^ n] := by
  have hmod : ((u % 2 ^ n : Nat) : Int) ≡ u [ZMOD 2 ^ n] := by
    push_cast
    exact Int.mod_modEq _ _
  unfold extendedValue
  cases hneg : sgn && p.testBit 6 with
  | false =>
    rw [if_neg (fun h => by simp [h.1, h.2.2] at hneg)]
    simpa using hmod
  | true =>
    rw [Bool.and_eq_true] at hneg
    by_cases hk : 7 * k < n
    · have hle : 2 ^ (7 * k) ≤ 2 ^ n := Nat.pow_le_pow_right (by decide) hk.le
      rw [if_pos ⟨hneg.1, hk, hneg.2⟩, Int.ofNat_sub (by omega)]
      push_cast
      exact (Int.add_modEq_right.trans (Int.mod_modEq _ _)).sub_right _
    · have hdvd : (2 : Int) ^ n ∣ 2 ^ (7 * k) := pow_dvd_pow 2 (by omega)
      rw [if_neg (fun h => hk h.2.1)]
      simpa using hmod.sub (Int.modEq_zero_iff_dvd.mpr hdvd).symm

theorem toNat_cast_lt {w : Nat} (x : BitVec w) : (x.toNat : Int) < 2 ^ w := by
  exact_mod_cast x.isLt

theorem toInt_modEq {w : Nat} (x : BitVec w) : x.toInt ≡ x.toNat [ZMOD 2 ^ w] := by
  rw [BitVec.toInt_eq_toNat_bmod]
  exact_mod_cast Int.bmod_emod

/-- Reading VALUE by the operation's signedness gives a number in the range of its width. -/
theorem valueRead_inRange (sgn : Bool) (v : Value) : inRange (valueWidth v) sgn (valueRead sgn v) = true := by
  cases sgn with
  | false => cases v with
    | w32 x => exact inRange_false.mpr ⟨Int.natCast_nonneg _, toNat_cast_lt x⟩
    | w64 x => exact inRange_false.mpr ⟨Int.natCast_nonneg _, toNat_cast_lt x⟩
  | true => cases v with
    | w32 x => exact inRange_true.mpr ⟨BitVec.le_toInt x, BitVec.toInt_lt⟩
    | w64 x => exact inRange_true.mpr ⟨BitVec.le_toInt x, BitVec.toInt_lt⟩

theorem valueRead_modEq (sgn : Bool) (v : Value) : valueRead sgn v ≡ valueUnsigned v [ZMOD 2 ^ valueWidth v] := by
  cases sgn with
  | false => rfl
  | true => cases v with
    | w32 x => exact toInt_modEq x
    | w64 x => exact toInt_modEq x

/-! ### A whole operation with a terminator in reach -/

/-- A launched operation ends as the closed form of its span says. -/
theorem Launchable.operate_ends {s : State} {a b : Nat} (hl : Launchable s a b) (c : OpCode) :
    ∃ t, operate c a b s = .next t ∧ t.op = c ∧
      Delivers t (decodeSpan (bits c) (opSigned c) (spanBytes s.mem a b)) := by
  have ⟨_, hspan, hend⟩ := hl
  have hread : Reading (startScan c a b { s with inputs := [] }) := startScan_reading rfl hspan hend
  obtain ⟨-, t, ht, hends⟩ := hread.scanToEnd_cases (Nat.zero_add _)
  exact ⟨t, (hl.operate_eq c).trans (hends.of_launch ht), hends.op_eq, hends.delivers⟩

/-- R86: success delivers the encoded number with its length, and OVERFLOW is the only other end. -/
theorem Launchable.operate_terminated {s : State} {a b k : Nat} (hl : Launchable s a b) (c : OpCode)
    (hterm : terminatorIndex ((spanBytes s.mem a b).take (maxGroups c)) = some k) :
    ∃ t, operate c a b s = .next t ∧
      (inRange (bits c) (opSigned c) (encodedValue (opSigned c) (spanBytes s.mem a b) k) = true ∧
          t.phase = .done ∧ t.len.toNat = k ∧
          valueRead (opSigned c) t.value = encodedValue (opSigned c) (spanBytes s.mem a b) k ∨
        OverflowsAt (bits c) (opSigned c) (spanBytes s.mem a b) k ∧ t.phase = .fail ∧ t.err = .overflow) := by
  obtain ⟨t, ht, hop, hdel⟩ := hl.operate_ends c
  refine ⟨t, ht, ?_⟩
  obtain ⟨h1, hk⟩ := terminatorIndex_bounds hterm
  rw [List.length_take] at hk
  have hover := overflowsAt_iff (bs := spanBytes s.mem a b) c h1 (by omega) (by omega)
  by_cases ho : OverflowsAt (bits c) (opSigned c) (spanBytes s.mem a b) k
  · rw [decodeSpan_overflow hterm ho] at hdel
    obtain ⟨hphase, herr, -⟩ := hdel
    exact .inr ⟨ho, hphase, herr⟩
  · have hin := Bool.eq_true_of_not_eq_false (mt hover.mpr ho)
    rw [decodeSpan_ok hterm ho] at hdel
    obtain ⟨hphase, -, hlen, hwidth, hval⟩ := hdel
    rw [hop] at hwidth
    refine .inl ⟨hin, hphase, hlen, ?_⟩
    have hread := valueRead_modEq (opSigned c) t.value
    rw [hwidth, hval] at hread
    exact eq_of_inRange (by have := bits_eq c; omega) (hwidth ▸ valueRead_inRange (opSigned c) t.value) hin
      (hread.trans (extendedValue_modEq _ _ _ _ _))

/-- Settles O30, from the two ends of an operation whose terminator is in reach. -/
theorem valueTheorem : Obligations.ValueTheorem := by
  intro s c a b k hl hterm
  obtain ⟨h1, hk⟩ := terminatorIndex_bounds hterm
  rw [List.length_take] at hk
  obtain ⟨t, ht, ⟨hin, hphase, hlen, hval⟩ | ⟨ho, hphase, herr⟩⟩ := hl.operate_terminated c hterm
  · exact ⟨t, ht, by simp [hphase, hin], fun _ => ⟨hlen, hval⟩, fun _ => hphase, fun hne => absurd hphase hne⟩
  · have hout := (overflowsAt_iff (bs := spanBytes s.mem a b) c h1 (by omega) (by omega)).mp ho
    exact ⟨t, ht, by simp [hphase, hout], by simp [hphase], fun hlt => absurd ho.1 hlt.ne, fun _ => herr⟩

end Sys2Proof.Machine
end

section
/-! The encoder of R89 and the MAX_GROUPS boundary of R90. -/

namespace Sys2Proof.Machine

/-! ### The encoder -/

/-- A payload of the encoder is a remainder by 128 (R89). -/
theorem emod_128_toNat_lt (v : Int) : (v % 128).toNat < 128 := by omega

theorem encodeIn_length (m : Nat) (v : Int) : (encodeIn m v).length = m := by
  induction m, v using encodeIn.induct with
  | case1 v => rfl
  | case2 v => rfl
  | case3 m v ih => rw [encodeIn, List.length_cons, ih]

/-- The only terminator of an encoding is its last byte. -/
theorem terminatorIndex_encodeIn {m : Nat} (h : 1 ≤ m) (v : Int) : terminatorIndex (encodeIn m v) = some m := by
  have hlt := emod_128_toNat_lt v
  induction m, v using encodeIn.induct with
  | case1 v => omega
  | case2 v =>
    exact terminatorIndex_cons_term (by rw [BitVec.toNat_ofNat]; omega) []
  | case3 m v ih =>
    rw [encodeIn, terminatorIndex_cons_cont (by rw [BitVec.toNat_ofNat]; omega),
      ih (Nat.succ_pos m) (emod_128_toNat_lt _)]
    rfl

/-- The payloads of an encoding in `m` groups are the low `7m` bits of the number. -/
theorem assemble_encodeIn (m : Nat) (v : Int) : (assemble (encodeIn m v) : Int) ≡ v [ZMOD 2 ^ (7 * m)] := by
  induction m, v using encodeIn.induct with
  | case1 v => exact Int.modEq_one
  | case2 v =>
    have hlast : payloadNat (BitVec.ofNat 8 (v % 128).toNat) = (v % 128).toNat := by
      rw [payloadNat, BitVec.toNat_ofNat]
      omega
    rw [encodeIn, assemble, hlast, assemble, Int.ModEq]
    omega
  | case3 m v ih =>
    have hfirst : payloadNat (BitVec.ofNat 8 ((v % 128).toNat + 128)) = (v % 128).toNat := by
      rw [payloadNat, BitVec.toNat_ofNat]
      omega
    have hsplit : v = (v % 128).toNat + 128 * (v / 128) := by omega
    have hpow : (2 : Int) ^ (7 * (m + 2)) = 128 * 2 ^ (7 * (m + 1)) := by ring
    rw [encodeIn, assemble, hfirst, hpow]
    conv_rhs => rw [hsplit]
    push_cast
    exact (ih.mul_left' (c := 128)).add_left _

/-- `fitsGroups` is the range of `7m` bits (R89). -/
theorem fitsGroups_eq_inRange (sgn : Bool) (v : Int) (m : Nat) : fitsGroups sgn v m = inRange (7 * m) sgn v := rfl

/-- An encoding in enough groups encodes its number, whatever follows (R87, R88). -/
theorem encodedValue_of_take_eq_encodeIn {sgn : Bool} {bs : List Byte} {m : Nat} {v : Int} (h1 : 1 ≤ m)
    (hfits : fitsGroups sgn v m = true) (htake : bs.take m = encodeIn m v) : encodedValue sgn bs m = v := by
  have hlen := congrArg List.length htake
  rw [List.length_take, encodeIn_length] at hlen
  have hmod : encodedValue sgn bs m ≡ v [ZMOD 2 ^ (7 * m)] := by
    have hsign : (if sgn && (payloadNat (bs.getD (m - 1) 0)).testBit 6 then (2 : Int) ^ (7 * m) else 0) ≡
        0 [ZMOD 2 ^ (7 * m)] := by
      split
      · exact Int.modEq_zero_iff_dvd.mpr dvd_rfl
      · rfl
    rw [encodedValue, htake]
    simpa using (assemble_encodeIn m v).sub hsign
  exact eq_of_inRange (by omega) (encodedValue_inRange sgn h1 (by omega)) (fitsGroups_eq_inRange sgn v m ▸ hfits) hmod

/-- A terminator stays where it is when bytes follow. -/
theorem terminatorIndex_take_of_le {bs : List Byte} {m n k : Nat} (h : terminatorIndex (bs.take m) = some k)
    (hmn : m ≤ n) : terminatorIndex (bs.take n) = some k := by
  induction bs generalizing m n k with
  | nil => simp at h
  | cons b bs ih =>
    obtain ⟨m, rfl⟩ : ∃ m', m = m' + 1 := ⟨m - 1, by cases m <;> simp_all⟩
    obtain ⟨n, rfl⟩ : ∃ n', n = n' + 1 := ⟨n - 1, by omega⟩
    rw [List.take_succ_cons] at h ⊢
    rcases Nat.lt_or_ge b.toNat 128 with hb | hb
    · rw [terminatorIndex_cons_term hb] at h ⊢
      exact h
    · rw [terminatorIndex_cons_cont hb, Option.map_eq_some_iff] at h ⊢
      obtain ⟨i, hi, rfl⟩ := h
      exact ⟨i, ih hi (by omega), rfl⟩

/-- Settles O31: the encoding's terminator is in reach, and what it encodes is the number, which is in range. -/
theorem encodedValuesDecode : Obligations.EncodedValuesDecode := by
  intro s c a b m v hl hin h1 hm hfits htake
  have hterm : terminatorIndex ((spanBytes s.mem a b).take (maxGroups c)) = some m :=
    terminatorIndex_take_of_le (htake ▸ terminatorIndex_encodeIn h1 v) hm
  have hval := encodedValue_of_take_eq_encodeIn h1 hfits htake
  obtain ⟨t, ht, hdone, hresult, -, -⟩ := valueTheorem s c a b m hl hterm
  rw [hval] at hdone hresult
  have hphase := hdone.mpr hin
  exact ⟨t, ht, hphase, hresult hphase⟩

/-- Settles O32: MAX_GROUPS groups hold at least the operation's width. -/
theorem everyValueHasAnEncoding : Obligations.EveryValueHasAnEncoding := by
  intro c v hin
  have hbits : bits c ≤ 7 * maxGroups c := by have := bits_eq c; omega
  exact ⟨(fitsGroups_eq_inRange _ v _).trans (inRange_mono hbits hin), encodeIn_length _ v⟩

/-! ### The MAX_GROUPS boundary -/

/-- Byte `i` of a span. -/
theorem spanBytes_getD (m : Memory) {a b i : Nat} (h : i < b - a) : (spanBytes m a b).getD i 0 = m.read (a + i) := by
  rw [List.getD_eq_getElem _ _ (by rwa [spanBytes_length])]
  simp [spanBytes]

/-- After `n` continuation groups the next byte alone decides whether there is a terminator among `n + 1` bytes. -/
theorem terminatorIndex_take_succ {bs : List Byte} {n : Nat} (hn : n < bs.length) (h : allContinue (bs.take n)) :
    terminatorIndex (bs.take (n + 1)) = if (bs.getD n 0).toNat < 128 then some (n + 1) else none := by
  rw [take_succ_of_lt hn, terminatorIndex_append h, List.length_take, Nat.min_eq_left hn.le]
  split
  · rename_i hb
    rw [terminatorIndex_cons_term hb, Option.map_some, Nat.add_comm]
  · rename_i hb
    rw [terminatorIndex_cons_cont (by omega)]
    rfl

/-- Settles O33, by the closed form on the three kinds of span. -/
theorem groupLimitBoundary : Obligations.GroupLimitBoundary := by
  intro s c a b hl hcont hlen
  have hM : maxGroups c - 1 + 1 = maxGroups c := by have := bits_eq c; omega
  have hlast := spanBytes_getD s.mem (a := a) (b := b) (i := maxGroups c - 1) (by omega)
  have hterm := terminatorIndex_take_succ (by rw [spanBytes_length]; omega) hcont
  rw [hlast, hM] at hterm
  obtain ⟨t, ht, -, hdel⟩ := hl.operate_ends c
  intro last
  refine ⟨fun hlow hfill => ?_, fun hhigh hmore => ?_, fun hhigh hend => ?_⟩
  · rw [if_pos hlow] at hterm
    have hfits : ¬OverflowsAt (bits c) (opSigned c) (spanBytes s.mem a b) (maxGroups c) := by
      rw [OverflowsAt, hlast, hfill]
      simp
    rw [decodeSpan_ok hterm hfits] at hdel
    obtain ⟨hphase, -, hlen, -⟩ := hdel
    exact ⟨t, ht, hphase, hlen⟩
  · rw [if_neg (Nat.not_lt.mpr hhigh)] at hterm
    rw [decodeSpan_tooLong hterm (by rwa [spanBytes_length])] at hdel
    obtain ⟨hphase, herr, -⟩ := hdel
    exact ⟨t, ht, hphase, herr⟩
  · rw [if_neg (Nat.not_lt.mpr hhigh)] at hterm
    rw [decodeSpan_truncated hterm (by rw [spanBytes_length]; exact hend.ge)] at hdel
    obtain ⟨hphase, herr, -⟩ := hdel
    exact ⟨t, ht, hphase, herr⟩

end Sys2Proof.Machine
end

section
/-! R98, the four operations on one span: where the terminator is depends on the bytes alone, and a success delivers the
number they encode, so the operations differ by MAX_GROUPS, by the range of R86 and by the reading of the sign. -/

namespace Sys2Proof.Machine

/-! ### What the bytes alone decide -/

/-- The terminator among the first `m` bytes is the terminator, where it is one of them. -/
theorem terminatorIndex_take_eq_some_iff {bs : List Byte} {m k : Nat} :
    terminatorIndex (bs.take m) = some k ↔ terminatorIndex bs = some k ∧ k ≤ m := by
  induction bs generalizing m k with
  | nil => simp
  | cons b bs ih =>
    cases m with
    | zero =>
      suffices terminatorIndex (b :: bs) = some k → k ≠ 0 by simpa using this
      intro h
      obtain ⟨hpos, -⟩ := terminatorIndex_bounds h
      exact Nat.ne_of_gt hpos
    | succ m =>
      rw [List.take_succ_cons]
      rcases Nat.lt_or_ge b.toNat 128 with hb | hb
      · rw [terminatorIndex_cons_term hb, terminatorIndex_cons_term hb]
        simp only [Option.some.injEq]
        omega
      · rw [terminatorIndex_cons_cont hb, terminatorIndex_cons_cont hb]
        simp only [Option.map_eq_some_iff, ih]
        constructor
        · rintro ⟨i, ⟨hi, hle⟩, rfl⟩
          exact ⟨⟨i, hi, rfl⟩, by omega⟩
        · rintro ⟨⟨i, hi, rfl⟩, hle⟩
          exact ⟨i, ⟨hi, by omega⟩, rfl⟩

/-- Every failure but OVERFLOW is found before a terminator is read, so it is the same for both signednesses. -/
theorem decodeSpan_eq_failed_iff {n : Nat} {bs : List Byte} {x : Cause} (hx : x ≠ .overflow) (sgn sgn' : Bool) :
    decodeSpan n sgn bs = .failed x ↔ decodeSpan n sgn' bs = .failed x := by
  cases hterm : terminatorIndex (bs.take (groupLimit n)) with
  | none =>
    by_cases hl : bs.length ≤ groupLimit n
    · rw [decodeSpan_truncated hterm hl, decodeSpan_truncated hterm hl]
    · rw [decodeSpan_tooLong hterm (Nat.not_le.mp hl), decodeSpan_tooLong hterm (Nat.not_le.mp hl)]
  | some k =>
    have hne (sg : Bool) : decodeSpan n sg bs ≠ .failed x := by
      by_cases ho : OverflowsAt n sg bs k
      · rw [decodeSpan_overflow hterm ho]
        simpa using hx.symm
      · simp [decodeSpan_ok hterm ho]
    simp [hne]

/-- The sign is a multiple of `2^(7k)`, so the low `7k` bits of the encoded number are the payloads. -/
theorem encodedValue_modEq_assemble (sgn : Bool) (bs : List Byte) (k : Nat) :
    encodedValue sgn bs k ≡ assemble (bs.take k) [ZMOD 2 ^ (7 * k)] := by
  unfold encodedValue
  split
  · exact Int.sub_modulus_modEq_iff.mpr rfl
  · rw [sub_zero]

/-- With the sign bit clear the encoded number is the payloads, signed or not. -/
theorem encodedValue_of_not_testBit {bs : List Byte} {k : Nat}
    (h : (payloadNat (bs.getD (k - 1) 0)).testBit 6 = false) (sgn : Bool) :
    encodedValue sgn bs k = assemble (bs.take k) := by
  rw [encodedValue, h, Bool.and_false, if_neg Bool.false_ne_true, sub_zero]

/-! ### What a finished operation says of its span -/

theorem causeErr_injective : Function.Injective causeErr := by
  intro x y
  cases x <;> cases y <;> simp [causeErr]

theorem Delivers.err_eq_causeErr_iff {t : State} {r : SpanResult} (h : Delivers t r) (x : Cause) :
    t.err = causeErr x ↔ r = .failed x := by
  cases r with
  | ok k v =>
    obtain ⟨-, herr, -⟩ := h
    simp [herr, (causeErr_ne_noError x).symm]
  | failed y =>
    obtain ⟨-, herr, -⟩ := h
    simp [herr, causeErr_injective.eq_iff]

theorem Delivers.valueWidth_eq {t : State} {r : SpanResult} (h : Delivers t r) : valueWidth t.value = bits t.op := by
  cases r with
  | ok k v =>
    obtain ⟨-, -, -, hwidth, -⟩ := h
    exact hwidth
  | failed y =>
    obtain ⟨-, -, -, hwidth⟩ := h
    exact hwidth

theorem valueUnsigned_lt : ∀ v : Value, valueUnsigned v < 2 ^ valueWidth v
  | .w32 x => x.isLt
  | .w64 x => x.isLt

section
variable {s t : State} {c : OpCode} {a b k : Nat}

theorem Launchable.delivers (hl : Launchable s a b) (ht : operate c a b s = .next t) :
    t.op = c ∧ Delivers t (decodeSpan (bits c) (opSigned c) (spanBytes s.mem a b)) := by
  obtain ⟨u, hu, hend⟩ := hl.operate_ends c
  cases ht.symm.trans hu
  exact hend

theorem Launchable.valueWidth_eq (hl : Launchable s a b) (ht : operate c a b s = .next t) :
    valueWidth t.value = bits c := by
  obtain ⟨hop, hdel⟩ := hl.delivers ht
  rw [hdel.valueWidth_eq, hop]

theorem Launchable.valueUnsigned_lt (hl : Launchable s a b) (ht : operate c a b s = .next t) :
    valueUnsigned t.value < 2 ^ bits c :=
  hl.valueWidth_eq ht ▸ Machine.valueUnsigned_lt t.value

/-- Where the terminator is in reach, the operation succeeds exactly if the encoded number fits (R86). -/
theorem Launchable.done_iff_inRange (hl : Launchable s a b) (ht : operate c a b s = .next t)
    (hterm : terminatorIndex (spanBytes s.mem a b) = some k) (hk : k ≤ maxGroups c) :
    t.phase = .done ↔ inRange (bits c) (opSigned c) (encodedValue (opSigned c) (spanBytes s.mem a b) k) = true := by
  obtain ⟨u, hu, hdone, -⟩ := valueTheorem s c a b k hl (terminatorIndex_take_eq_some_iff.mpr ⟨hterm, hk⟩)
  cases ht.symm.trans hu
  exact hdone

/-- Below MAX_GROUPS every number fits (R80). -/
theorem Launchable.done_of_lt (hl : Launchable s a b) (ht : operate c a b s = .next t)
    (hterm : terminatorIndex (spanBytes s.mem a b) = some k) (hk : k < maxGroups c) : t.phase = .done := by
  obtain ⟨u, hu, -, -, hearly, -⟩ :=
    valueTheorem s c a b k hl (terminatorIndex_take_eq_some_iff.mpr ⟨hterm, hk.le⟩)
  cases ht.symm.trans hu
  exact hearly hk

/-- In the last possible group the fill check of its payload decides (R80). -/
theorem Launchable.done_iff_fillMatches (hl : Launchable s a b) (ht : operate c a b s = .next t)
    (hterm : terminatorIndex (spanBytes s.mem a b) = some (maxGroups c)) :
    t.phase = .done ↔
      fillMatches (bits c) (opSigned c) (payloadNat (s.mem.read (a + (maxGroups c - 1)))) = true := by
  obtain ⟨h1, hlen⟩ := terminatorIndex_bounds hterm
  have hover := overflowsAt_iff c h1 hlen le_rfl
  rw [spanBytes_length] at hlen
  rw [OverflowsAt, spanBytes_getD s.mem (by omega)] at hover
  rw [hl.done_iff_inRange ht hterm le_rfl, ← Bool.not_eq_false, ← Bool.not_eq_false, ← hover]
  exact not_congr (and_iff_right rfl)

/-- A terminator out of reach is a further byte after MAX_GROUPS continuation groups (R102). -/
theorem Launchable.tooLong_of_lt (hl : Launchable s a b) (ht : operate c a b s = .next t)
    (hterm : terminatorIndex (spanBytes s.mem a b) = some k) (hk : maxGroups c < k) :
    t.phase = .fail ∧ t.err = .tooLong := by
  have hnone : terminatorIndex ((spanBytes s.mem a b).take (maxGroups c)) = none := by
    refine Option.eq_none_iff_forall_ne_some.mpr fun j hj => ?_
    obtain ⟨hj, hle⟩ := terminatorIndex_take_eq_some_iff.mp hj
    cases hterm.symm.trans hj
    omega
  obtain ⟨-, hlen⟩ := terminatorIndex_bounds hterm
  obtain ⟨-, hdel⟩ := hl.delivers ht
  rw [decodeSpan_tooLong hnone (hk.trans_le hlen)] at hdel
  obtain ⟨hphase, herr, -⟩ := hdel
  exact ⟨hphase, herr⟩

/-- A success has read up to the terminator and delivers the number encoded there (R86). -/
theorem Launchable.of_done (hl : Launchable s a b) (ht : operate c a b s = .next t) (hd : t.phase = .done) :
    terminatorIndex (spanBytes s.mem a b) = some t.len.toNat ∧ t.len.toNat ≤ maxGroups c ∧
      valueRead (opSigned c) t.value = encodedValue (opSigned c) (spanBytes s.mem a b) t.len.toNat := by
  cases hterm : terminatorIndex ((spanBytes s.mem a b).take (maxGroups c)) with
  | none =>
    obtain ⟨-, hdel⟩ := hl.delivers ht
    rcases Nat.lt_or_ge (maxGroups c) (spanBytes s.mem a b).length with hlen | hlen
    · rw [decodeSpan_tooLong hterm hlen] at hdel
      obtain ⟨hfail, -⟩ := hdel
      cases hd.symm.trans hfail
    · rw [decodeSpan_truncated hterm hlen] at hdel
      obtain ⟨hfail, -⟩ := hdel
      cases hd.symm.trans hfail
  | some k =>
    obtain ⟨u, hu, -, hresult, -⟩ := valueTheorem s c a b k hl hterm
    cases ht.symm.trans hu
    obtain ⟨rfl, hval⟩ := hresult hd
    obtain ⟨hk, hle⟩ := terminatorIndex_take_eq_some_iff.mp hterm
    exact ⟨hk, hle, hval⟩

/-- The bit pattern of a success is the encoded number modulo the width. -/
theorem Launchable.valueUnsigned_modEq (hl : Launchable s a b) (ht : operate c a b s = .next t)
    (hd : t.phase = .done) : (valueUnsigned t.value : Int) ≡
      encodedValue (opSigned c) (spanBytes s.mem a b) t.len.toNat [ZMOD 2 ^ bits c] := by
  obtain ⟨-, -, hval⟩ := hl.of_done ht hd
  rw [← hval, ← hl.valueWidth_eq ht]
  exact (valueRead_modEq (opSigned c) t.value).symm

end

/-! ### Two operations on one span -/

section
variable {s t u : State} {c d : OpCode} {a b : Nat}

/-- Two successes on one span have read up to the same terminator. -/
theorem Launchable.len_eq (hl : Launchable s a b) (ht : operate c a b s = .next t) (hu : operate d a b s = .next u)
    (htd : t.phase = .done) (hud : u.phase = .done) : t.len = u.len := by
  obtain ⟨hk, -⟩ := hl.of_done ht htd
  obtain ⟨hj, -⟩ := hl.of_done hu hud
  exact BitVec.eq_of_toNat_eq (Option.some.inj (hk.symm.trans hj))

/-- R98 (a). -/
theorem Launchable.sameScanFailure (hl : Launchable s a b) (ht : operate c a b s = .next t)
    (hu : operate d a b s = .next u) (hbits : bits c = bits d) : SameScanFailure t u := by
  obtain ⟨-, htdel⟩ := hl.delivers ht
  obtain ⟨-, hudel⟩ := hl.delivers hu
  rw [← hbits] at hudel
  have hsame {x : Cause} (hx : x ≠ .overflow) : t.err = causeErr x ↔ u.err = causeErr x := by
    rw [htdel.err_eq_causeErr_iff, hudel.err_eq_causeErr_iff, decodeSpan_eq_failed_iff hx]
  exact ⟨hsame (x := .truncated) (by decide), hsame (x := .tooLong) (by decide)⟩

/-- R98 (b), (c): the terminator stays in reach and the number in range. -/
theorem Launchable.widensTo (hl : Launchable s a b) (ht : operate c a b s = .next t) (hu : operate d a b s = .next u)
    (hsgn : opSigned c = opSigned d) (hbits : bits c ≤ bits d) : WidensTo (opSigned c) t u := by
  intro htd
  obtain ⟨hterm, hk, hval⟩ := hl.of_done ht htd
  have hgroups : maxGroups c ≤ maxGroups d := Nat.div_le_div_right (Nat.add_le_add_right hbits 6)
  have hin := (hl.done_iff_inRange ht hterm hk).mp htd
  have hud : u.phase = .done :=
    (hl.done_iff_inRange hu hterm (hk.trans hgroups)).mpr (hsgn ▸ inRange_mono hbits hin)
  have hlen := hl.len_eq hu ht hud htd
  obtain ⟨-, -, huval⟩ := hl.of_done hu hud
  exact ⟨hud, hlen, by rw [hval, hsgn, huval, hlen]⟩

/-- Of two successes of one signedness the narrower delivers the low bits of the wider. -/
theorem Launchable.valueUnsigned_narrow (hl : Launchable s a b) (ht : operate c a b s = .next t)
    (hu : operate d a b s = .next u) (hsgn : opSigned c = opSigned d) (hbits : bits c ≤ bits d)
    (htd : t.phase = .done) (hud : u.phase = .done) :
    valueUnsigned t.value = valueUnsigned u.value % 2 ^ bits c := by
  have hwide := hl.valueUnsigned_modEq hu hud
  rw [← hsgn, ← hl.len_eq ht hu htd hud] at hwide
  have hmod := (hl.valueUnsigned_modEq ht htd).trans (hwide.of_dvd (pow_dvd_pow 2 hbits)).symm
  rw [← Nat.mod_eq_of_lt (hl.valueUnsigned_lt ht)]
  exact_mod_cast hmod

/-- R98 (d): MAX_GROUPS of 32 bits stands between the lengths, at 5. -/
theorem Launchable.narrowsTo (hl : Launchable s a b) (ht : operate c a b s = .next t) (hu : operate d a b s = .next u)
    (hsgn : opSigned c = opSigned d) (hc : bits c = 32) (hd : bits d = 64) :
    NarrowsTo (opSigned c) (payloadNat (s.mem.read (a + 4))) u t := by
  have hmax : maxGroups c = 5 := by have := bits_eq c; omega
  intro hud
  obtain ⟨hterm, -, -⟩ := hl.of_done hu hud
  refine ⟨fun hk => ?_, fun hk => ?_, fun hk => hl.tooLong_of_lt ht hterm (by omega)⟩
  · have htd := hl.done_of_lt ht hterm (by omega)
    have hlow := hl.valueUnsigned_narrow ht hu hsgn (by omega) htd hud
    exact ⟨htd, hl.len_eq ht hu htd hud, hc ▸ hlow⟩
  · rw [hk, ← hmax] at hterm
    have hlast := hl.done_iff_fillMatches ht hterm
    rwa [hc, hmax] at hlast

/-- R98 (e): below MAX_GROUPS the sign stands above the written bits; at MAX_GROUPS the payloads in both pass lists have
no sign. -/
theorem Launchable.signednessRelated {common : Nat → Prop} (hl : Launchable s a b)
    (ht : operate c a b s = .next t) (hu : operate d a b s = .next u) (hbits : bits c = bits d)
    (hcommon : ∀ p : Payload, fillMatches (bits c) (opSigned c) p.toNat = true →
      fillMatches (bits c) (opSigned d) p.toNat = true → common p.toNat ∧ p.toNat.testBit 6 = false) :
    SignednessRelated (maxGroups c) common (payloadNat (s.mem.read (a + (maxGroups c - 1)))) t u := by
  intro htd hud
  have hmax : maxGroups c = maxGroups d := congrArg groupLimit hbits
  have hlen := hl.len_eq ht hu htd hud
  have htmod := hl.valueUnsigned_modEq ht htd
  have humod := hl.valueUnsigned_modEq hu hud
  rw [← hbits, ← hlen] at humod
  obtain ⟨hterm, -, -⟩ := hl.of_done ht htd
  refine ⟨hlen, fun hk => ?_, fun hk => ?_⟩
  · have hdvd : (2 : Int) ^ (7 * t.len.toNat) ∣ 2 ^ bits c := pow_dvd_pow 2 (by have := bits_eq c; omega)
    have hmod := ((htmod.of_dvd hdvd).trans (encodedValue_modEq_assemble _ _ _)).trans
      ((humod.of_dvd hdvd).trans (encodedValue_modEq_assemble _ _ _)).symm
    exact_mod_cast hmod
  · rw [hk] at hterm htmod humod
    obtain ⟨h1, hspan⟩ := terminatorIndex_bounds hterm
    rw [spanBytes_length] at hspan
    have hread := spanBytes_getD s.mem (a := a) (b := b) (i := maxGroups c - 1) (by omega)
    have htfill := (hl.done_iff_fillMatches ht hterm).mp htd
    have hufill := (hl.done_iff_fillMatches hu (hmax ▸ hterm)).mp hud
    rw [← hbits, ← hmax] at hufill
    rw [← payloadOf_toNat] at htfill hufill ⊢
    obtain ⟨hc, hsign⟩ := hcommon _ htfill hufill
    rw [payloadOf_toNat, ← hread] at hsign
    rw [encodedValue_of_not_testBit hsign] at htmod humod
    have hmod := htmod.trans humod.symm
    exact ⟨hc, Nat.ModEq.eq_of_lt_of_lt (by exact_mod_cast hmod) (hl.valueUnsigned_lt ht)
      (hbits ▸ hl.valueUnsigned_lt hu)⟩

end

/-- Settles O35, clause by clause from the laws of two operations on one span. -/
theorem operationsRelated : Obligations.OperationsRelated := by
  intro s a b hl
  obtain ⟨u32, hu32, -⟩ := hl.operate_ends 0b00#2
  obtain ⟨i32, hi32, -⟩ := hl.operate_ends 0b01#2
  obtain ⟨u64, hu64, -⟩ := hl.operate_ends 0b10#2
  obtain ⟨i64, hi64, -⟩ := hl.operate_ends 0b11#2
  exact ⟨u32, i32, u64, i64, hu32, hi32, hu64, hi64,
    hl.sameScanFailure hu32 hi32 rfl, hl.sameScanFailure hu64 hi64 rfl,
    hl.widensTo hu32 hu64 rfl (by decide), hl.widensTo hi32 hi64 rfl (by decide),
    hl.narrowsTo hu32 hu64 rfl rfl rfl, hl.narrowsTo hi32 hi64 rfl rfl rfl,
    hl.signednessRelated hu32 hi32 rfl (by decide), hl.signednessRelated hu64 hi64 rfl (by decide)⟩

end Sys2Proof.Machine
end

section
/-! The host's actions on the block and the decoder's failures: when a launch and a read are admitted, what the others are
refused with, and what each failure leaves (R101 to R104, R112 to R114, R118). -/

namespace Sys2Proof.Machine

section
variable {s t : State} {rest : List HostAction}

/-! ### A pending launch (R112) -/

section
variable {c : OpCode} {a b : Nat}

theorem step_launch_admitted (hi : s.inputs = .launch c a b :: rest) (hl : Launchable s a b) :
    step s = .next (startScan c a b { s with inputs := rest }) := by
  obtain ⟨hphase, hspan, hend⟩ := hl
  rw [step_launch hi]
  exact launch_next.mpr ⟨hphase, hspan, hend, rfl⟩

theorem step_launch_of_scan (hi : s.inputs = .launch c a b :: rest) (hp : s.phase = .scan) :
    step s = .refused .launchWhileScanning := by
  rw [step_launch hi]
  exact if_pos hp

theorem step_launch_of_illegal (hi : s.inputs = .launch c a b :: rest) (hp : s.phase ≠ .scan)
    (hspan : ¬(a ≤ b ∧ b ≤ 2 ^ s.aw)) : step s = .refused .illegalSpan := by
  rw [step_launch hi]
  exact (if_neg hp).trans (if_neg hspan)

end

/-! ### A pending read (R113) -/

theorem step_read_of_done (hi : s.inputs = .read :: rest) (hp : s.phase = .done) :
    step s = .next { s with inputs := rest, reply := some (.result s.value s.len s.err) } := by
  rw [step_read hi]
  simp [hostRead, hp]

theorem step_read_of_fail (hi : s.inputs = .read :: rest) (hp : s.phase = .fail) :
    step s = .next { s with
      inputs := rest, reply := some (.result (drawValue s.op s.draws) s.len s.err), draws := s.draws + 1 } := by
  rw [step_read hi]
  simp [hostRead, hp]

/-- No result is readable before an operation has ended (R118 item 3). -/
theorem step_read_refused (hi : s.inputs = .read :: rest) (hp : s.phase = .idle ∨ s.phase = .scan) :
    step s = .refused .noResult := by
  rw [step_read hi]
  rcases hp with hp | hp <;> simp [hostRead, hp]

/-! ### A pending write into the span (R118 item 4) -/

theorem step_memWrite_refused {a : Nat} {x : Byte} (hi : s.inputs = .memWrite a x :: rest) (ha : a < 2 ^ s.aw)
    (hp : s.phase = .scan) (hin : inSpan s a = true) : step s = .refused .spanWriteWhileScanning := by
  rw [step_memWrite hi]
  exact (if_neg (Nat.not_le.mpr ha)).trans (if_pos ⟨hp, hin⟩)

/-! ### The decoder's turn and its failures (R101 to R104) -/

theorem withInputs_self (hi : s.inputs = rest) : { s with inputs := rest } = s := by
  rw [← hi]

/-- In a scan every turn of the decoder is its step, with what stays pending (log 1). -/
theorem DecoderTurn.step_eq (h : DecoderTurn s rest) (hp : s.phase = .scan) :
    step s = decoderStep { s with inputs := rest } := by
  rcases h with ⟨hi, rfl⟩ | hi | ⟨r, hi, rfl⟩
  · rw [step_nil hi, withInputs_self hi]
  · exact step_dec hi
  · rw [step_wait hi, if_pos hp, withInputs_self hi]

theorem decoderStep_at_end (hp : s.phase = .scan) (he : s.pos = s.endPos) :
    decoderStep s = .next (failWith .truncated s) :=
  decoderStep_next_iff.mpr ⟨hp, .inl he, (scanStep_at_end he).symm⟩

theorem decoderStep_at_limit (hp : s.phase = .scan) (he : s.pos ≠ s.endPos) (hc : s.groupCount.toNat = maxGroups s.op) :
    decoderStep s = .next (failWith .tooLong s) :=
  decoderStep_next_iff.mpr ⟨hp, .inr (.inl hc), (scanStep_at_limit he hc).symm⟩

theorem terminate_of_miss {p : Payload} (hf : fillOk s.op s.shift.toNat p = false) :
    terminate p s = failWith .overflow s := by
  simp [terminate, hf]

/-- A decoder step takes nothing off the pending list. -/
theorem decoderStep_inputs (h : decoderStep s = .next t) : t.inputs = s.inputs := by
  obtain ⟨-, hcases⟩ := decoderStep_next h
  rcases hcases with ⟨-, rfl⟩ | ⟨-, -, rfl⟩ | ⟨-, -, -, ⟨-, rfl⟩ | ⟨-, rfl⟩⟩
  · rfl
  · rfl
  · rfl
  · obtain ⟨-, -, -, -, -, -, -, -, hinputs, -⟩ :=
      terminate_frame (payloadOf (s.mem.read s.pos)) (accumulate (payloadOf (s.mem.read s.pos)) s)
    exact hinputs

end

/-- Settles O9: the launch's three answers, and the scan it begins has no result to read. -/
theorem launchAdmission : Obligations.LaunchAdmission := by
  intro s c a b rest hi
  refine ⟨fun hl => ?_, step_launch_of_scan hi, step_launch_of_illegal hi⟩
  have hstep := step_launch_admitted hi hl
  refine ⟨hstep, fun t ht => ?_⟩
  rw [hstep] at ht
  cases ht
  exact step_read_refused rfl (.inr rfl)

/-- Settles O21: each failure test answers failure entry for its cause, and FAIL has no decoder step. -/
theorem failureEntry : Obligations.FailureEntry := by
  intro s hp
  refine ⟨fun rest hturn he => ?_, fun rest hturn he hc => ?_, fun p hfill => ?_, fun t hstep hfail => ?_⟩
  · rw [hturn.step_eq hp]
    exact decoderStep_at_end (s := { s with inputs := rest }) hp he
  · rw [hturn.step_eq hp]
    exact decoderStep_at_limit (s := { s with inputs := rest }) hp he hc
  · exact exec_groupTerm_next.mpr ⟨hp, (terminate_of_miss (s := accumulate p s) hfill).symm⟩
  · have hstuck : decoderStep t = .fault .noDecoderStep := decoderStep_of_not_scan (by simp [hfail])
    refine ⟨hstuck, fun hi => ?_⟩
    rw [step_nil hi] at hstep
    rw [step_nil ((decoderStep_inputs hstep).trans hi), hstuck]

/-- Settles O36, by the read's answer in each phase. -/
theorem readResult : Obligations.ReadResult := fun s _ hi =>
  ⟨step_read_of_done hi, step_read_of_fail hi, step_read_refused hi, valueWidth_drawValue s.op⟩

/-- Settles O37: phase() has no guard, and the sign of LEN is the invariant's result contract. -/
theorem readPhase : Obligations.ReadPhase :=
  ⟨fun _ _ hi => step_phase hi, fun _ hinv hp => (hinv.result hp).done_iff⟩

/-- Settles O39: under the invariant a scan's span lies inside the memory, so a write to it is refused and no fault. -/
theorem refusals : Obligations.Refusals := by
  intro s rest
  refine ⟨fun c a b hi hp => step_launch_of_scan hi hp, fun c a b hi hp hbad => ?_,
    fun hi hp => step_read_refused hi hp, fun a x hi hinv hp hlow hhigh => ?_, fun r hi => step_peek hi⟩
  · exact step_launch_of_illegal hi hp (by omega)
  · have hend : s.endPos ≤ 2 ^ s.aw := (hinv.working (by simp [hp])).end_le
    exact step_memWrite_refused hi (by omega) hp (inSpan_iff.mpr ⟨hlow, hhigh⟩)

end Sys2Proof.Machine
end

section
/-! Reset, and what keeps a result: outside a scan the block's registers change by a launch or a reset only (R109, R123,
R124, R129). -/

namespace Sys2Proof.Machine

section
variable {s t : State} {rest : List HostAction}

/-! ### A pending reset (R123, R124) -/

theorem step_reset_next (hi : s.inputs = .reset :: rest) : step s = .next (resetBlock { s with inputs := rest }) :=
  step_reset hi

theorem resetBlock_sameOutside (s : State) : SameOutside s (resetBlock s) := ⟨rfl, rfl, rfl⟩

/-- With nothing pending the block stands still outside a scan (R70). -/
theorem step_stuck_of_not_scan (hi : s.inputs = []) (hp : s.phase ≠ .scan) : step s = .fault .noDecoderStep := by
  rw [step_nil hi]
  exact decoderStep_of_not_scan hp

/-! ### Steps outside a scan (R109, R129) -/

/-- Outside a scan a step that is neither a reset nor a launch changes the memory and the host's record at most. -/
theorem step_next_of_not_scan (h : step s = .next t) (hp : s.phase ≠ .scan) (hreset : s.inputs.head? ≠ some .reset)
    (hlaunch : ∀ c a b, s.inputs.head? ≠ some (.launch c a b)) :
    ∃ i m y d, t = { s with inputs := i, mem := m, reply := y, draws := d } := by
  rcases step_next h with ⟨-, hd⟩ | ⟨r, -, hd⟩ | ⟨r, -, hs, -⟩ | ⟨r, -, -, rfl⟩ | ⟨r, c, a, b, hi, -, -, -, -⟩ |
    ⟨r, -, -, rfl⟩ | ⟨r, -, -, rfl⟩ | ⟨r, -, rfl⟩ | ⟨r, hi, -⟩ | ⟨r, a, x, -, -, -, rfl⟩
  · exact absurd (decoderStep_next hd).1 hp
  · exact absurd (decoderStep_next hd).1 hp
  · exact absurd hs hp
  · exact ⟨_, _, _, _, rfl⟩
  · exact absurd (by simp [hi]) (hlaunch c a b)
  · exact ⟨_, _, _, _, rfl⟩
  · exact ⟨_, _, _, _, rfl⟩
  · exact ⟨_, _, _, _, rfl⟩
  · exact absurd (by simp [hi]) hreset
  · exact ⟨_, _, _, _, rfl⟩

end

/-- Settles O40: DONE and FAIL are outside a scan, where no other step reaches a register of the block. -/
theorem resultStays : Obligations.ResultStays := by
  intro s t h hended hreset hlaunch
  have hp : s.phase ≠ .scan := by rcases hended with hp | hp <;> simp [hp]
  obtain ⟨i, m, y, d, rfl⟩ := step_next_of_not_scan h hp hreset hlaunch
  exact ⟨rfl, ⟨rfl, rfl, rfl⟩, rfl, rfl, rfl, rfl, rfl, rfl⟩

/-- Settles O38, by the reset state: its registers are the draws, and IDLE has no result and no decoder step. -/
theorem resetAction : Obligations.ResetAction := by
  intro s rest hi
  refine ⟨resetBlock { s with inputs := rest }, step_reset_next hi, rfl, rfl, rfl, rfl, rfl, rfl, rfl, rfl, rfl, rfl,
    resetBlock_sameOutside _, rfl, ?_, ?_⟩
  · exact step_read_refused rfl (.inl rfl)
  · exact step_stuck_of_not_scan rfl (by simp)

end Sys2Proof.Machine
end
